-- ==== Sys2Proof/Word.lean ====
section
/-! DEFINITION. The word of WSCORE and its operators (spec/00_scope.md R8, R9). -/

namespace Sys2Proof

/-- A word: an unsigned integer in `[0, 2^32)`, bit 0 the least significant (R8). -/
abbrev Word := BitVec 32

/-- A shift amount: `0 ≤ t ≤ 31`, so that an amount of 32 or more has no spelling (R9, R103, R238). -/
abbrev ShiftAmount := Fin 32

namespace Word

/-- `v >> t`, logical (zero-fill) right shift (R9). -/
def shr (v : Word) (t : ShiftAmount) : Word := v >>> t.val

/-- `v << t`, left shift truncated to 32 bits (R9). -/
def shl (v : Word) (t : ShiftAmount) : Word := v <<< t.val

/-- `zext(v)`: the word as a non-negative integer, used only in scaling (R11). -/
def zext (v : Word) : Nat := v.toNat

end Word

end Sys2Proof
end

