-- ==== Sys2Proof/Config.lean ====
section
/-! DEFINITION. The parameters of spec/00_scope.md R6, under the spec's names: the constants WS fixes as plain
constants, and the amounts the spec itself calls parameters (U8, U9, C6) as records with their default values. -/

namespace Sys2Proof

namespace Config

/-- `S.R`: words in unit S (R6). -/
abbrev sR : Nat := 32

/-- `L.R`: words in unit L (R6). -/
abbrev lR : Nat := 624

/-- `S.RM1`: offset of the "previous" word and index advance of unit S (R6). -/
abbrev sRM1 : Nat := 31

/-- `L.M1`: first lag of unit L (R6). -/
abbrev lM1 : Nat := 70
/-- `L.M2`: second lag of unit L (R6). -/
abbrev lM2 : Nat := 179
/-- `L.M3`: third lag of unit L (R6). -/
abbrev lM3 : Nat := 449

/-- `L.C1`: complement of the first lag and region boundary (R6, R7, R239: the exact value). -/
abbrev lC1 : Nat := 554
/-- `L.C2`: complement of the second lag and region boundary (R6, R7, R239). -/
abbrev lC2 : Nat := 445
/-- `L.C3`: complement of the third lag and region boundary (R6, R7, R239). -/
abbrev lC3 : Nat := 175

/-- `L.TB`: mask of the first tempering pass (R6, R170). -/
abbrev lTB : Word := 0xE46E1700#32
/-- `L.TC`: mask of the second tempering pass (R6, R170). -/
abbrev lTC : Word := 0x9B868000#32
/-- `L.SB`: left shift of the first tempering pass (R6, R170). -/
abbrev lSB : ShiftAmount := 7
/-- `L.SC`: left shift of the second tempering pass (R6, R170). -/
abbrev lSC : ShiftAmount := 15

/-- The scaling constant `FACT` is 2 to the power of minus this (R6, R172). -/
abbrev factBits : Nat := 32

/-- The parameters of unit S (R6). The tap offsets are WS's literals, normative although the published WELL1024a has
others (R3, C6; log 11); `index0` is decision D9 (U9; log 10). -/
structure SmallParams where
  m1 : Nat := 13
  m2 : Nat := 9
  m3 : Nat := 5
  t1 : ShiftAmount := 8
  t2 : ShiftAmount := 19
  t3 : ShiftAmount := 14
  t4 : ShiftAmount := 11
  t5 : ShiftAmount := 7
  t6 : ShiftAmount := 13
  index0 : Nat := 0
  deriving DecidableEq, Repr

/-- The parameters of unit L that WS does not give: decisions D10, D11, D12 (U8, G1). UNVERIFIED: recalled values of
the published WELL19937a; a wrong one errs both ways, unsafe (log 9). -/
structure LargeParams where
  t0 : ShiftAmount := 25
  t1 : ShiftAmount := 27
  t2 : ShiftAmount := 9
  t3 : ShiftAmount := 1
  t5 : ShiftAmount := 9
  t6 : ShiftAmount := 21
  t7 : ShiftAmount := 21
  maskU : Word := 0x7FFFFFFF#32
  maskL : Word := 0x80000000#32
  deriving DecidableEq, Repr

/-- Unit S with the default parameters of R6. -/
def small : SmallParams := {}

/-- Unit L with the default parameters of R6. -/
def large : LargeParams := {}

end Config

end Sys2Proof
end

