-- ==== Sys2Proof/Syntax.lean ====
section
/-! DEFINITION. The instructions: one constructor for each row of spec/opcode_table.json (R72, R76), the six modes
(R26), and the assembler's lines (R79). -/

namespace Sys2Proof

/-- `L.mode`: "a tagged variant carrying no payload beyond identity" (R26, R76). -/
inductive Mode where
  | case1 | case2 | case3 | case4 | case5 | case6
  deriving DecidableEq, Repr

/-- One constructor for each row of the opcode table. The first five are the host's commands (R72, R73), a command
and its payload being one value; `seed` is `none` when no array is supplied (`p = 0`). The other six are the case
rules that `NEXTL` selects by `L.mode` (R76, R137 to R142); they are no commands and no command word spells them. -/
inductive Instr where
  | seeds (seed : Option (List Word))
  | seedl (t : Bool) (seed : Option (List Word))
  | temper (t : Bool)
  | nexts
  | nextl
  | nextlCase1
  | nextlCase2
  | nextlCase3
  | nextlCase4
  | nextlCase5
  | nextlCase6
  deriving DecidableEq, Repr

/-- The rows of format `CMD32`: what the host can issue (R72). -/
def Instr.isCommand : Instr → Bool
  | .seeds _ | .seedl _ _ | .temper _ | .nexts | .nextl => true
  | .nextlCase1 | .nextlCase2 | .nextlCase3 | .nextlCase4 | .nextlCase5 | .nextlCase6 => false

/-- The case rule that the mode selects (R76, R130). -/
def Mode.caseRule : Mode → Instr
  | .case1 => .nextlCase1
  | .case2 => .nextlCase2
  | .case3 => .nextlCase3
  | .case4 => .nextlCase4
  | .case5 => .nextlCase5
  | .case6 => .nextlCase6

/-- A line of an assembler program (R79): a command, `.rep k, CMD`, or `.word w`. -/
inductive AsmLine where
  | cmd (i : Instr)
  | rep (k : Nat) (i : Instr)
  | word (w : Word)
  deriving DecidableEq, Repr

end Sys2Proof
end

