-- ==== Sys2Proof/Machine/State.lean ====
section
/-! DEFINITION. The state of WSCORE (spec/10_state.md R20 to R35), its host interface (R74, R82, R201, R230), the
reasons a step can stop, and the state after reset (R35). -/

namespace Sys2Proof.Machine

/-- A word-addressed array (R50): (address, word) cells in one canonical form, addresses strictly rising. An address
that is not listed holds no value (R35, R231). -/
abbrev Memory := List (Nat × Word)

/-- Unit S, the WELL-1024 slot (R20). -/
structure UnitS where
  /-- `S.words` (R21). -/
  words : Memory
  /-- `S.index` (R25). -/
  index : Nat
  /-- `S.constructed` (R28). -/
  constructed : Bool
  deriving DecidableEq, Repr

/-- Unit L, the WELL-19937 slot (R20). -/
structure UnitL where
  /-- `L.words` (R22). -/
  words : Memory
  /-- `L.index` (R25). -/
  index : Nat
  /-- `L.mode` (R26). -/
  mode : Mode
  /-- `L.tempering` (R27). -/
  tempering : Bool
  /-- `L.constructed` (R28). -/
  constructed : Bool
  /-- `L.started` (R29). -/
  started : Bool
  deriving DecidableEq, Repr

/-- What a command reports (R201). The codes 7 to 15 have no constructor (U7). -/
inductive Status where
  | ok
  | nullSeed
  | invalidSeedLength
  | notConstructed
  | temperingLocked
  | illegalCommand
  | indexOutOfRange
  deriving DecidableEq, Repr

/-- The record a command answers with (R74). -/
structure Response where
  /-- The 4-bit status code (R201). -/
  status : BitVec 4
  /-- The sample as a binary64 bit pattern, zero for every other response (R74, R173). -/
  sample : BitVec 64
  deriving DecidableEq, Repr

/-- What the host can do to the block besides reading responses (R82). -/
inductive HostInput where
  /-- One word of the command stream: a command word or a payload word (R70, R73). -/
  | word (w : Word)
  /-- The reset event (R230). -/
  | reset
  deriving DecidableEq, Repr

/-- The whole machine: the two units, which share nothing (R20), and the model's own record of the host interface
(log 4): what the host has issued and the block has not taken yet, and what the host has been answered (R242). -/
structure State where
  unitS : UnitS
  unitL : UnitL
  /-- Host inputs not taken yet, oldest first. -/
  inputs : List HostInput
  /-- Responses given, oldest first. -/
  responses : List Response
  deriving DecidableEq, Repr

/-- Which unit a stop names. -/
inductive UnitName where
  | S | L
  deriving DecidableEq, Repr

/-- Reasons the model stops with a fault. -/
inductive Fault where
  /-- A step of a constructed unit reads a word that holds no value (R231, U5). Raised by NEXTS, NEXTL and the case
  rules. Safe: no value is invented, and no state reached from reset has such a unit (log 1). -/
  | wordHoldsNoValue (u : UnitName) (addr : Nat)
  deriving DecidableEq, Repr

/-- Reasons the model gives a step no meaning. -/
inductive Refusal where
  /-- An instruction without a meaning yet, by its mnemonic. Raised by exec alone. Safe. -/
  | notModelled (mnemonic : String)
  /-- The command sequence is exhausted: the run is over (R242). Raised by step when no host input is pending. Safe
  (log 7). -/
  | noHostInput
  /-- The host has not supplied the whole payload the command word announces (R73). Raised by step. Safe (log 8). -/
  | incompletePayload
  deriving DecidableEq, Repr

/-- What a meaning answers. -/
abbrev Result := Host.Outcome State Fault Refusal

/-- Unit S after reset (R35). -/
def UnitS.reset : UnitS := { words := [], index := 0, constructed := false }

/-- Unit L after reset (R35). -/
def UnitL.reset : UnitL :=
  { words := [], index := 0, mode := .case1, tempering := false, constructed := false, started := false }

/-- The machine right after reset (R35, R230): no instance in either unit, `words` holding no value; the host has
issued nothing and been answered nothing (log 4). -/
def State.reset : State := { unitS := .reset, unitL := .reset, inputs := [], responses := [] }

end Sys2Proof.Machine
end

