-- ==== Sys2Proof/Machine/Flags.lean ====
section
/-! DEFINITION. The control state of unit L: the region of an index (R32), the next mode (R143), and the flags
`tempering`, `constructed`, `started` (R27 to R30). -/

namespace Sys2Proof.Machine

/-- The mode whose region holds the index (R32). -/
def regionOf (i : Nat) : Mode :=
  if i = 0 then .case1
  else if i = 1 then .case2
  else if i < Config.lC3 then .case6
  else if i < Config.lC2 then .case4
  else if i < Config.lC1 then .case5
  else .case3

/-- The next index of a step (R143). A step in another mode than `Case1` or `Case2` reads the word at `i − 1`, so
that `i ≥ 1` where this value is used. -/
def nextIndex (m : Mode) (i : Nat) : Nat :=
  match m with
  | .case1 => 623
  | .case2 => 0
  | .case3 | .case4 | .case5 | .case6 => i - 1

/-- The next mode of a step from the current mode and the NEW index (R143, R239: the exact comparisons). -/
def nextMode (m : Mode) (i' : Nat) : Mode :=
  match m with
  | .case1 => .case3
  | .case2 => .case1
  | .case3 => if i' < Config.lC1 then .case5 else .case3
  | .case5 => if i' < Config.lC2 then .case4 else .case5
  | .case4 => if i' < Config.lC3 then .case6 else .case4
  | .case6 => if i' = 1 then .case2 else .case6

/-- A sample has been drawn from the instance (R29, R145). -/
def UnitL.markStarted (u : UnitL) : UnitL := { u with started := true }

/-- The tempering switch (R27, R182). -/
def UnitL.setTempering (t : Bool) (u : UnitL) : UnitL := { u with tempering := t }

end Sys2Proof.Machine
end

