-- ==== Sys2Proof/Machine/BitMix.lean ====
section
/-! DEFINITION. The bit-mixing primitives (spec/40_bitmix.md R100 to R103) and the word recurrences built from them: the
data paths of unit S (R111) and unit L (R132 to R135). Pure functions on words. -/

namespace Sys2Proof.Machine

/-- `mixRight(t, v) = v XOR (v >> t)` (R100). -/
def mixRight (t : ShiftAmount) (v : Word) : Word := v ^^^ v.shr t

/-- `mixLeft(t, v) = v XOR (v << t)` (R101). -/
def mixLeft (t : ShiftAmount) (v : Word) : Word := v ^^^ v.shl t

/-- `shiftRightOnly(t, v) = v >> t` (R102). -/
def shiftRightOnly (t : ShiftAmount) (v : Word) : Word := v.shr t

/-- The two words a step writes: `newV1` at the current index, `newV0` at the boundary word (R111, R135). -/
structure NewWords where
  newV1 : Word
  newV0 : Word
  deriving DecidableEq, Repr

/-- The five words a step of unit S reads (R110). -/
structure SmallTaps where
  w0 : Word
  wR : Word
  w1 : Word
  w2 : Word
  w3 : Word
  deriving DecidableEq, Repr

/-- `z1` of unit S (R111). -/
def smallZ1 (c : Config.SmallParams) (x : SmallTaps) : Word := x.w0 ^^^ mixRight c.t1 x.w1

/-- `z2` of unit S (R111). -/
def smallZ2 (c : Config.SmallParams) (x : SmallTaps) : Word := mixLeft c.t2 x.w2 ^^^ mixLeft c.t3 x.w3

/-- The words a step of unit S writes, from the words it read (R111); `z0` is the word at `aR`. -/
def smallNewWords (c : Config.SmallParams) (x : SmallTaps) : NewWords :=
  let z0 := x.wR
  let z1 := smallZ1 c x
  let z2 := smallZ2 c x
  { newV1 := z1 ^^^ z2
    newV0 := mixLeft c.t4 z0 ^^^ mixLeft c.t5 z1 ^^^ mixLeft c.t6 z2 }

/-- The six words a step of unit L reads (R131). -/
structure LargeTaps where
  v0 : Word
  vM1 : Word
  vM2 : Word
  vM3 : Word
  vRm1 : Word
  vRm2 : Word
  deriving DecidableEq, Repr

/-- `z0` of unit L, the boundary mix (R132; D10). -/
def largeZ0 (c : Config.LargeParams) (x : LargeTaps) : Word := (x.vRm1 &&& c.maskL) ||| (x.vRm2 &&& c.maskU)

/-- `z1` of unit L (R133; D11). -/
def largeZ1 (c : Config.LargeParams) (x : LargeTaps) : Word := mixLeft c.t0 x.v0 ^^^ mixRight c.t1 x.vM1

/-- `z2` of unit L (R134; D11). -/
def largeZ2 (c : Config.LargeParams) (x : LargeTaps) : Word := shiftRightOnly c.t2 x.vM2 ^^^ mixRight c.t3 x.vM3

/-- The words a step of unit L writes, from the words it read (R135; D12). -/
def largeNewWords (c : Config.LargeParams) (x : LargeTaps) : NewWords :=
  let z0 := largeZ0 c x
  let z1 := largeZ1 c x
  let z2 := largeZ2 c x
  let newV1 := z1 ^^^ z2
  { newV1
    newV0 := z0 ^^^ mixLeft c.t5 z1 ^^^ mixLeft c.t6 z2 ^^^ mixRight c.t7 newV1 }

end Sys2Proof.Machine
end

