-- ==== Sys2Proof/WellFormed.lean ====
section
/-! DEFINITION. Which instructions an encoding can spell (R71: the word count `n` has 16 bits; R81: "whose list is
shorter than 65536 words"). -/

namespace Sys2Proof

/-- A supplied seed array has a count that fits the field `n` (R71). -/
def seedFits : Option (List Word) → Bool
  | none => true
  | some ws => decide (ws.length < 65536)

/-- The instruction has an encoding (R81). -/
def Instr.wf : Instr → Bool
  | .seeds seed => seedFits seed
  | .seedl _ seed => seedFits seed
  | .temper _ | .nexts | .nextl => true
  | .nextlCase1 | .nextlCase2 | .nextlCase3 | .nextlCase4 | .nextlCase5 | .nextlCase6 => true

end Sys2Proof
end

