-- ==== Sys2Proof/Decode.lean ====
section
/-! DEFINITION. Decoding and encoding: the command word `CMD32` (R70 to R73, R77, R81), the mode field `MODE3` (R76),
and the expansion of an assembler program into words (R79). -/

namespace Sys2Proof

/-! The fields of a command word (R70, R71). -/

/-- `op`, bits 31:28. -/
def opField (c : Word) : BitVec 4 := c.extractLsb' 28 4
/-- `t`, bit 27. -/
def tField (c : Word) : Bool := c.getLsbD 27
/-- `p`, bit 26. -/
def pField (c : Word) : Bool := c.getLsbD 26
/-- `zero`, bits 25:16. -/
def zeroField (c : Word) : BitVec 10 := c.extractLsb' 16 10
/-- `n`, bits 15:0. -/
def nField (c : Word) : BitVec 16 := c.extractLsb' 0 16

/-- What a legal command word says by itself: the command, and for a construction the payload's word count, `none`
when no array is supplied (R73). -/
inductive Header where
  | seeds (count : Option Nat)
  | seedl (t : Bool) (count : Option Nat)
  | temper (t : Bool)
  | nexts
  | nextl
  deriving DecidableEq, Repr

/-- The payload count of a construction word from `p` and `n`; `none` when `p = 0` with `n ≠ 0`, which is illegal
(R77 case 5, R81 step 3). -/
def seedCount (p : Bool) (n : BitVec 16) : Option (Option Nat) :=
  if p then some (some n.toNat) else if n = 0#16 then some none else none

/-- Decoding of one command word, R81 in its order; `none` is `IllegalCommand`. -/
def decodeHeader (c : Word) : Option Header :=
  if zeroField c ≠ 0#10 then none
  else
    match (opField c).toNat with
    | 1 => if tField c then none else (seedCount (pField c) (nField c)).map .seeds
    | 2 => (seedCount (pField c) (nField c)).map (.seedl (tField c))
    | 3 => if pField c || nField c != 0#16 then none else some (.temper (tField c))
    | 4 => if tField c || pField c || nField c != 0#16 then none else some .nexts
    | 5 => if tField c || pField c || nField c != 0#16 then none else some .nextl
    | _ => none

/-- How many payload words follow the command word (R73, R78). -/
def Header.payloadLength : Header → Nat
  | .seeds count => count.getD 0
  | .seedl _ count => count.getD 0
  | .temper _ | .nexts | .nextl => 0

/-- The instruction of a header and its payload (R73). -/
def Header.attach : Header → List Word → Instr
  | .seeds count, payload => .seeds (count.map fun _ => payload)
  | .seedl t count, payload => .seedl t (count.map fun _ => payload)
  | .temper t, _ => .temper t
  | .nexts, _ => .nexts
  | .nextl, _ => .nextl

/-- What the decoder reads from the front of the command stream. -/
inductive Decoded where
  /-- A command, with the number of words it takes: its command word and its payload (R73, R78). -/
  | instr (i : Instr) (used : Nat)
  /-- An illegal command word; it alone is consumed (R77, R81). -/
  | illegal
  /-- No command word, or fewer payload words than it announces. -/
  | incomplete
  deriving DecidableEq, Repr

/-- The decoder, total on every list of words (R81). -/
def decode : List Word → Decoded
  | [] => .incomplete
  | c :: rest =>
    match decodeHeader c with
    | none => .illegal
    | some h =>
      if h.payloadLength ≤ rest.length then
        .instr (h.attach (rest.take h.payloadLength)) (1 + h.payloadLength)
      else .incomplete

/-- Decoding of the 3-bit mode field (R76): 0 and 7 are unused. -/
def decodeMode (m : BitVec 3) : Option Mode :=
  match m.toNat with
  | 1 => some .case1
  | 2 => some .case2
  | 3 => some .case3
  | 4 => some .case4
  | 5 => some .case5
  | 6 => some .case6
  | _ => none

/-! Encoding, written from the field table R71 and the command set R72. -/

/-- A command word from its fields, most significant first (R70). -/
def commandWord (op : BitVec 4) (t p : Bool) (n : BitVec 16) : Word :=
  op ++ BitVec.ofBool t ++ BitVec.ofBool p ++ 0#10 ++ n

/-- A construction's command word and payload (R72, R73). -/
def encodeSeed (op : BitVec 4) (t : Bool) : Option (List Word) → List Word
  | none => [commandWord op t false 0#16]
  | some ws => commandWord op t true (BitVec.ofNat 16 ws.length) :: ws

/-- The 3-bit encoding of a mode: the case number (R76). -/
def encodeMode : Mode → BitVec 3
  | .case1 => 0b001#3
  | .case2 => 0b010#3
  | .case3 => 0b011#3
  | .case4 => 0b100#3
  | .case5 => 0b101#3
  | .case6 => 0b110#3

/-- An encoding in one of the table's two formats. -/
inductive Code where
  /-- Words of the command stream (R70, R73). -/
  | cmd32 (words : List Word)
  /-- A value of the mode field (R76). -/
  | mode3 (m : BitVec 3)
  deriving DecidableEq, Repr

/-- The encoding of an instruction (R72, R76); it spells the instruction when it is well formed. -/
def encode : Instr → Code
  | .seeds seed => .cmd32 (encodeSeed 0x1#4 false seed)
  | .seedl t seed => .cmd32 (encodeSeed 0x2#4 t seed)
  | .temper t => .cmd32 [commandWord 0x3#4 t false 0#16]
  | .nexts => .cmd32 [commandWord 0x4#4 false false 0#16]
  | .nextl => .cmd32 [commandWord 0x5#4 false false 0#16]
  | .nextlCase1 => .mode3 (encodeMode .case1)
  | .nextlCase2 => .mode3 (encodeMode .case2)
  | .nextlCase3 => .mode3 (encodeMode .case3)
  | .nextlCase4 => .mode3 (encodeMode .case4)
  | .nextlCase5 => .mode3 (encodeMode .case5)
  | .nextlCase6 => .mode3 (encodeMode .case6)

/-- The words of a code; a mode field is no part of the command stream. -/
def Code.words : Code → List Word
  | .cmd32 ws => ws
  | .mode3 _ => []

/-- The instruction a whole encoding spells, if any. -/
def decodeCode : Code → Option Instr
  | .cmd32 ws =>
    match decode ws with
    | .instr i used => if used = ws.length then some i else none
    | .illegal | .incomplete => none
  | .mode3 m => (decodeMode m).map Mode.caseRule

/-! The assembler of R79. -/

/-- The words one line places in the command stream (R79). -/
def AsmLine.words : AsmLine → List Word
  | .cmd i => (encode i).words
  | .rep k i => (List.replicate k (encode i).words).flatten
  | .word w => [w]

/-- The command stream of a program (R79). -/
def assemble (program : List AsmLine) : List Word := program.flatMap AsmLine.words

/-! The opcode table's numbering: bit 0 is the least significant bit of the first word, a later word's bits count on. -/

/-- The words of the instruction whose bits are `w`: its command word and as many payload words as it announces. -/
def tableWords (w : Nat) : List Word :=
  let c : Word := BitVec.ofNat 32 w
  let count := ((decodeHeader c).map Header.payloadLength).getD 0
  c :: (List.range count).map fun k => BitVec.ofNat 32 (w >>> (32 * (k + 1)))

/-- The mode of a row of format `MODE3`, three bits in whole bytes (`nbits` of at most 8); the bits above the field
are 0 (log 5). -/
def tableMode (nbits w : Nat) : Option Mode :=
  if nbits ≤ 8 ∧ w < 8 then decodeMode (BitVec.ofNat 3 w) else none

/-- The instruction the decoder reads from an instruction whose bits are `w`, numbered as the opcode table numbers
them. -/
def decodeTableWord (nbits w : Nat) : Option Instr :=
  match tableMode nbits w with
  | some m => some m.caseRule
  | none =>
    match decode (tableWords w) with
    | .instr i _ => some i
    | .illegal | .incomplete => none

end Sys2Proof
end

