-- ==== Sys2Proof/Machine/Ops.lean ====
section
/-! DEFINITION. The shared operations: word access (R51, R54), answering a command and raising an error (R74, R201,
R205), the reset event (R230), and taking words from the command stream (R73, R78). -/

namespace Sys2Proof.Machine

/-! Memory. -/

/-- The value at an address, `none` where the array holds no value. -/
def Memory.read : Memory → Nat → Option Word
  | [], _ => none
  | (k, w) :: m, a => if k = a then some w else Memory.read m a

/-- The array with the value at one address replaced, in canonical form. -/
def Memory.write : Memory → Nat → Word → Memory
  | [], a, v => [(a, v)]
  | (k, w) :: m, a, v =>
    if a < k then (a, v) :: (k, w) :: m
    else if a = k then (a, v) :: m
    else (k, w) :: Memory.write m a v

/-- Consecutive addresses from `k` holding the words of a list in order. -/
def Memory.fill : Nat → List Word → Memory
  | _, [] => []
  | k, w :: ws => (k, w) :: Memory.fill (k + 1) ws

/-- `for k: words[k] <- seed[k]` into an array of the seed's length (R180, R181; the identity order of D4). -/
def Memory.ofSeed (seed : List Word) : Memory := Memory.fill 0 seed

/-- The addresses that hold a value. -/
def Memory.addresses (m : Memory) : List Nat := m.map Prod.fst

/-- The canonical form: addresses strictly rising. No cell can equal what an unlisted address reads as, since that is no value. -/
abbrev Memory.wf (m : Memory) : Prop := m.addresses.Pairwise (· < ·)

/-- Every address of a space of `R` words holds a value, and no other address is listed (R21, R22). -/
abbrev Memory.full (R : Nat) (m : Memory) : Prop := m.addresses = List.range R

/-- Why a word access does not answer. -/
inductive AccessError where
  /-- The address is outside `[0, U.R)` (R51, R203). -/
  | indexOutOfRange
  /-- The address holds no value (R231). -/
  | noValue (addr : Nat)
  deriving DecidableEq, Repr

/-- `MemRead(U, a, 1)` on an array of `R` words (R51). -/
def memRead (R : Nat) (m : Memory) (a : Int) : Except AccessError Word :=
  if 0 ≤ a ∧ a < R then
    match m.read a.toNat with
    | some v => .ok v
    | none => .error (.noValue a.toNat)
  else .error .indexOutOfRange

/-- `MemWrite(U, a, 1, v)` on an array of `R` words (R51). -/
def memWrite (R : Nat) (m : Memory) (a : Int) (v : Word) : Except AccessError Memory :=
  if 0 ≤ a ∧ a < R then .ok (m.write a.toNat v) else .error .indexOutOfRange

/-! Responses. -/

/-- The status codes (R201). -/
def Status.code : Status → BitVec 4
  | .ok => 0
  | .nullSeed => 1
  | .invalidSeedLength => 2
  | .notConstructed => 3
  | .temperingLocked => 4
  | .illegalCommand => 5
  | .indexOutOfRange => 6

/-- A command's response reaches the host (R74). -/
def State.answer (s : State) (r : Response) : State := { s with responses := s.responses ++ [r] }

/-- `respond OK(x)` with the sample's bit pattern (R11, R74); the zero pattern for a command that yields no sample. -/
def respondOk (sample : BitVec 64) (s : State) : Result := .next (s.answer { status := Status.ok.code, sample })

/-- `raise E` (R11, R205): the error's whole delivery. No field of either unit changes, the response carries the code
and sample zero, nothing is saved anywhere; there is nothing to return from (R206). -/
def raise (e : Status) (s : State) : Result := .next (s.answer { status := e.code, sample := 0#64 })

/-- What a command answers when a word access does not: the error IndexOutOfRange (R51, R203), and a fault of the model
where a word holds no value. -/
def raiseAccess (u : UnitName) (e : AccessError) (s : State) : Result :=
  match e with
  | .indexOutOfRange => raise .indexOutOfRange s
  | .noValue a => .fault (.wordHoldsNoValue u a)

/-! The host's inputs. -/

/-- The reset event (R230): both units to "no instance". The host keeps the responses it was given and the inputs it
has yet to see taken; a reset is no command and has no response (R74). -/
def State.takeReset (s : State) : State := { State.reset with inputs := s.inputs.drop 1, responses := s.responses }

/-- The words that stand at the front of the host's inputs, up to the first reset. -/
def leadingWords : List HostInput → List Word
  | .word w :: rest => w :: leadingWords rest
  | .reset :: _ => []
  | [] => []

/-- The inputs of the first `k` words are taken. -/
def State.consume (s : State) (k : Nat) : State := { s with inputs := s.inputs.drop k }

/-- What stands next at the host interface. -/
inductive Fetched where
  /-- A command with its payload, `used` words long (R73, R81). -/
  | command (i : Instr) (used : Nat)
  /-- An illegal command word (R77). -/
  | illegal
  /-- The reset event (R230). -/
  | reset
  /-- A command whose payload is not all there (log 8). -/
  | incomplete
  /-- Nothing (R242). -/
  | nothing
  deriving DecidableEq, Repr

/-- Look at the front of the host's inputs (R58: in the order issued; R230: a reset only between commands). -/
def fetch : List HostInput → Fetched
  | [] => .nothing
  | .reset :: _ => .reset
  | .word w :: rest =>
    match decode (w :: leadingWords rest) with
    | .instr i used => .command i used
    | .illegal => .illegal
    | .incomplete => .incomplete

/-! Placing an instruction where the next step takes it. -/

/-- The index at which the cycle of the modes enters a mode (R144). -/
def entryIndex : Mode → Nat
  | .case1 => 0
  | .case3 => 623
  | .case5 => 553
  | .case4 => 444
  | .case6 => 174
  | .case2 => 1

/-- A unit L in which NEXTL runs the case rule of the given mode, as the all-zero seed and as many samples as lead to
the mode's entry leave it (R144, R148). The tempering flag is kept (log 5). -/
def UnitL.atMode (m : Mode) (u : UnitL) : UnitL :=
  { words := Memory.ofSeed (List.replicate Config.lR 0#32), index := entryIndex m, mode := m,
    tempering := u.tempering, constructed := true, started := true }

/-- The words placed before everything the host has issued. -/
def State.issue (ws : List Word) (s : State) : State := { s with inputs := ws.map .word ++ s.inputs }

/-- The instruction whose bits are `w`, as the opcode table numbers them, placed where the next step takes it: its
words in the command stream, and for a case rule, which no word spells, NEXTL with the mode that selects it. -/
def State.placeTableWord (s : State) (nbits w : Nat) : State :=
  match tableMode nbits w with
  | some m => { s with unitL := s.unitL.atMode m }.issue (encode .nextl).words
  | none => s.issue (tableWords w)

end Sys2Proof.Machine
end

