-- ==== Sys2Proof/Machine/Operands.lean ====
section
/-! DEFINITION. The operand forms: the addresses of a step (R110, R131), reading the words there (R57), and the seed
operand of a construction (R180, R181). -/

namespace Sys2Proof.Machine

/-- The five addresses of a step of unit S (R110). -/
structure SmallAddrs where
  a0 : Nat
  aR : Nat
  a1 : Nat
  a2 : Nat
  a3 : Nat
  deriving DecidableEq, Repr

/-- The addresses at index `i`, "each reduced modulo 32" (R110). -/
def smallAddrs (c : Config.SmallParams) (i : Nat) : SmallAddrs :=
  { a0 := i % Config.sR
    aR := (i + Config.sRM1) % Config.sR
    a1 := (i + c.m1) % Config.sR
    a2 := (i + c.m2) % Config.sR
    a3 := (i + c.m3) % Config.sR }

/-- The reads of a step of unit S, all of the state before it (R57, R113). -/
def readSmallTaps (m : Memory) (a : SmallAddrs) : Except AccessError SmallTaps := do
  let w0 ← memRead Config.sR m a.a0
  let wR ← memRead Config.sR m a.aR
  let w1 ← memRead Config.sR m a.a1
  let w2 ← memRead Config.sR m a.a2
  let w3 ← memRead Config.sR m a.a3
  return { w0, wR, w1, w2, w3 }

/-- The six addresses of a step of unit L, as integers: a sum or difference with no modulo may leave `[0, 624)`, and is
then out of range, never wrapped (R10, R51, R131). -/
structure LargeAddrs where
  v0 : Int
  vM1 : Int
  vM2 : Int
  vM3 : Int
  vRm1 : Int
  vRm2 : Int
  deriving DecidableEq, Repr

/-- The address forms of the six modes (R131). -/
def largeAddrs (m : Mode) (i : Int) : LargeAddrs :=
  match m with
  | .case1 => ⟨i, i + Config.lM1, i + Config.lM2, i + Config.lM3, i + 623, i + 622⟩
  | .case2 => ⟨i, i + Config.lM1, i + Config.lM2, i + Config.lM3, i - 1, i + 622⟩
  | .case3 => ⟨i, i - Config.lC1, i - Config.lC2, i - Config.lC3, i - 1, i - 2⟩
  | .case5 => ⟨i, i + Config.lM1, i - Config.lC2, i - Config.lC3, i - 1, i - 2⟩
  | .case4 => ⟨i, i + Config.lM1, i + Config.lM2, i - Config.lC3, i - 1, i - 2⟩
  | .case6 => ⟨i, i + Config.lM1, i + Config.lM2, i + Config.lM3, i - 1, i - 2⟩

/-- The reads of a step of unit L, all of the state before it (R57, R136). -/
def readLargeTaps (m : Memory) (a : LargeAddrs) : Except AccessError LargeTaps := do
  let v0 ← memRead Config.lR m a.v0
  let vM1 ← memRead Config.lR m a.vM1
  let vM2 ← memRead Config.lR m a.vM2
  let vM3 ← memRead Config.lR m a.vM3
  let vRm1 ← memRead Config.lR m a.vRm1
  let vRm2 ← memRead Config.lR m a.vRm2
  return { v0, vM1, vM2, vM3, vRm1, vRm2 }

/-- The seed operand of a construction of `R` words: the array, or the error; NullSeed is tested first (R180, R181,
R208). The content is not examined (R240). -/
def checkSeed (R : Nat) (seed : Option (List Word)) : Except Status (List Word) :=
  match seed with
  | none => .error .nullSeed
  | some ws => if ws.length = R then .ok ws else .error .invalidSeedLength

end Sys2Proof.Machine
end

