-- ==== Sys2Proof/Machine/Construct.lean ====
section
/-! DEFINITION. Construction and configuration (spec/44_construction.md R180 to R185): SEEDS, SEEDL, TEMPER. -/

namespace Sys2Proof.Machine

/-- A new instance of unit S: every field takes the value the rule assigns (R180, R183). -/
def UnitS.construct (c : Config.SmallParams) (seed : List Word) : UnitS :=
  { words := Memory.ofSeed seed, index := c.index0, constructed := true }

/-- A new instance of unit L (R181, R183). -/
def UnitL.construct (t : Bool) (seed : List Word) : UnitL :=
  { words := Memory.ofSeed seed, index := 0, mode := .case1, tempering := t, constructed := true, started := false }

/-- SEEDS (R180). -/
def execSeeds (seed : Option (List Word)) (s : State) : Result :=
  match checkSeed Config.sR seed with
  | .error e => raise e s
  | .ok ws => respondOk 0#64 { s with unitS := UnitS.construct Config.small ws }

/-- SEEDL (R181). -/
def execSeedl (t : Bool) (seed : Option (List Word)) (s : State) : Result :=
  match checkSeed Config.lR seed with
  | .error e => raise e s
  | .ok ws => respondOk 0#64 { s with unitL := UnitL.construct t ws }

/-- TEMPER (R182); the rejection does not look at `t` (D27). -/
def execTemper (t : Bool) (s : State) : Result :=
  if s.unitL.constructed = false then raise .notConstructed s
  else if s.unitL.started then raise .temperingLocked s
  else respondOk 0#64 { s with unitL := s.unitL.setTempering t }

end Sys2Proof.Machine
end

