-- ==== Sys2Proof/Machine/Output.lean ====
section
/-! DEFINITION. Output tempering and scaling (spec/43_output.md R170 to R174): pure functions of the output word. -/

namespace Sys2Proof.Machine

/-- The first tempering pass (R170). -/
def temperPass1 (y0 : Word) : Word := y0 ^^^ (y0.shl Config.lSB &&& Config.lTB)

/-- The second tempering pass, on the result of the first (R170). -/
def temperPass2 (y1 : Word) : Word := y1 ^^^ (y1.shl Config.lSC &&& Config.lTC)

/-- `Temper(y0)` (R170). -/
def temper (y0 : Word) : Word := temperPass2 (temperPass1 y0)

/-- The output word: tempered when the flag is set (R171). -/
def outputWord (tempering : Bool) (y0 : Word) : Word := if tempering then temper y0 else y0

/-- `Scale(y)`: the exact number `zext(y) · 2^−32` (R172). -/
def scale (y : Word) : Rat := (y.zext : Rat) / 2 ^ Config.factBits

/-- The binary64 pattern of `Scale(y)` (R173; D24, log 12): sign 0, exponent field `991 + p` and fraction field
`(y − 2^p) · 2^(52 − p)` for the position `p` of the highest set bit, and `+0.0` for 0. -/
def sampleBits (y : Word) : BitVec 64 :=
  if y = 0#32 then 0#64
  else
    let p := Nat.log2 y.zext
    0#1 ++ BitVec.ofNat 11 (991 + p) ++ BitVec.ofNat 52 ((y.zext - 2 ^ p) * 2 ^ (52 - p))

/-- The number a finite binary64 pattern denotes (R173, G3: sign bit 63, exponent bits 62:52 with bias 1023, fraction
bits 51:0); infinities and NaN have none. -/
def binary64Value (b : BitVec 64) : Option Rat :=
  let sign : Rat := if b.getLsbD 63 then -1 else 1
  let e := (b.extractLsb' 52 11).toNat
  let f := (b.extractLsb' 0 52).toNat
  if e = 2047 then none
  else if e = 0 then some (sign * f / 2 ^ 1074)
  else some (sign * (2 ^ 52 + f) * 2 ^ e / 2 ^ 1075)

end Sys2Proof.Machine
end

