-- ==== Sys2Proof/Machine/LargeStep.lean ====
section
/-! DEFINITION. The WELL-19937 step and the six-case dispatch machine (spec/42_large_well19937.md R130 to R149): the
case rules and NEXTL. -/

namespace Sys2Proof.Machine

/-- The case rule of a mode on unit L: six reads, two writes, the next index and mode (R136, R137 to R142). Answers
the unit after it and the raw output word `newV0`. The rule follows the mode it is given, never the index (R130). -/
def UnitL.advance (c : Config.LargeParams) (m : Mode) (u : UnitL) : Except AccessError (UnitL × Word) := do
  let a := largeAddrs m u.index
  let x ← readLargeTaps u.words a
  let new := largeNewWords c x
  let m1 ← memWrite Config.lR u.words a.v0 new.newV1
  let m2 ← memWrite Config.lR m1 a.vRm1 new.newV0
  let i' := nextIndex m u.index
  return ({ u with words := m2, index := i', mode := nextMode m i' }, new.newV0)

/-- A case rule by itself, for an instance that exists (R145: `constructed` is tested before anything is read; U5). It
writes `words`, `index` and `mode` and no flag, and answers nothing: the response is NEXTL's (log 5). -/
def runCase (m : Mode) (s : State) : Result :=
  if s.unitL.constructed = false then raise .notConstructed s
  else
    match s.unitL.advance Config.large m with
    | .ok (u, _) => .next { s with unitL := u }
    | .error e => raiseAccess .L e s

/-- `Case1` (R137). -/
def execNextlCase1 (s : State) : Result := runCase .case1 s

/-- `Case2` (R138). -/
def execNextlCase2 (s : State) : Result := runCase .case2 s

/-- `Case3` (R139). -/
def execNextlCase3 (s : State) : Result := runCase .case3 s

/-- `Case4` (R140). -/
def execNextlCase4 (s : State) : Result := runCase .case4 s

/-- `Case5` (R141). -/
def execNextlCase5 (s : State) : Result := runCase .case5 s

/-- `Case6` (R142). -/
def execNextlCase6 (s : State) : Result := runCase .case6 s

/-- NEXTL (R145): the case rule of the current mode, then `started`, then the output word, tempered if the flag is set
(R171), as the sample. -/
def execNextl (s : State) : Result :=
  if s.unitL.constructed = false then raise .notConstructed s
  else
    match s.unitL.advance Config.large s.unitL.mode with
    | .ok (u, y0) => respondOk (sampleBits (outputWord s.unitL.tempering y0)) { s with unitL := u.markStarted }
    | .error e => raiseAccess .L e s

end Sys2Proof.Machine
end

