-- ==== Sys2Proof/Machine/SmallStep.lean ====
section
/-! DEFINITION. The WELL-1024 step (spec/41_small_well1024.md R110 to R116): NEXTS. -/

namespace Sys2Proof.Machine

/-- One step of the recurrence: the unit after it and its output word (R112). All reads come first (R113). -/
def UnitS.advance (c : Config.SmallParams) (u : UnitS) : Except AccessError (UnitS × Word) := do
  let a := smallAddrs c u.index
  let x ← readSmallTaps u.words a
  let new := smallNewWords c x
  let m1 ← memWrite Config.sR u.words a.a0 new.newV1
  let m2 ← memWrite Config.sR m1 a.aR new.newV0
  return ({ u with words := m2, index := a.aR }, new.newV0)

/-- NEXTS (R112). -/
def execNexts (s : State) : Result :=
  if s.unitS.constructed = false then raise .notConstructed s
  else
    match s.unitS.advance Config.small with
    | .ok (u, y) => respondOk (sampleBits y) { s with unitS := u }
    | .error e => raiseAccess .S e s

end Sys2Proof.Machine
end

