-- ==== Sys2Proof/Machine/Dispatch.lean ====
section
/-! DEFINITION. Dispatch: one arm for each instruction. -/

namespace Sys2Proof.Machine

def exec (i : Instr) (s : State) : Host.Outcome State Fault Refusal :=
  match i with
  | .seeds seed => Sys2Proof.Machine.execSeeds seed s
  | .seedl t seed => Sys2Proof.Machine.execSeedl t seed s
  | .temper t => Sys2Proof.Machine.execTemper t s
  | .nexts => Sys2Proof.Machine.execNexts s
  | .nextl => Sys2Proof.Machine.execNextl s
  | .nextlCase1 => Sys2Proof.Machine.execNextlCase1 s
  | .nextlCase2 => Sys2Proof.Machine.execNextlCase2 s
  | .nextlCase3 => Sys2Proof.Machine.execNextlCase3 s
  | .nextlCase4 => Sys2Proof.Machine.execNextlCase4 s
  | .nextlCase5 => Sys2Proof.Machine.execNextlCase5 s
  | .nextlCase6 => Sys2Proof.Machine.execNextlCase6 s

end Sys2Proof.Machine
end

