-- ==== Sys2Proof/Machine/Step.lean ====
section
/-! DEFINITION. One step: the reset event or one whole command (R12, R58, R230). -/

namespace Sys2Proof.Machine

/-- Take what stands next at the host interface and do it (R58): a command, its words consumed whole whatever it
answers (R73, R205); an illegal command word, consumed alone (R77, R81); the reset event (R230). With nothing there,
or a payload that is not all there, the model gives no step (log 7, log 8). -/
def step (s : State) : Host.Outcome State Fault Refusal :=
  match fetch s.inputs with
  | .command i used => exec i (s.consume used)
  | .illegal => raise .illegalCommand (s.consume 1)
  | .reset => .next s.takeReset
  | .incomplete => .refused .incompletePayload
  | .nothing => .refused .noHostInput

/-- The state with one instruction placed so that the very next step runs it (log 13). -/
def State.withFetchWord (s : State) (nbits w : Nat) : State := s.placeTableWord nbits w

end Sys2Proof.Machine
end

