-- ==== Sys2Proof/Safety.lean ====
section
/-! DEFINITION. What a safe run is: the invariant of the reachable states (R28, R31, R32, R208), and the terms in which
claims about several commands are made (R79, R149, R242). -/

namespace Sys2Proof.Machine

/-- Unit S is legal: the index is "a valid position into `words`" (R31), and `words` hold values exactly in an
instance (R21, R28, R35). -/
abbrev UnitS.Legal (u : UnitS) : Prop :=
  u.index < Config.sR ∧
    (u.constructed = true → u.words.full Config.sR) ∧ (u.constructed = false → u.words = [])

/-- Unit L is legal: the index is in range (R31), the mode is its region (R32), `words` hold values exactly in an
instance (R22, R28, R35), and a sample has been drawn only from an instance (R208). -/
abbrev UnitL.Legal (u : UnitL) : Prop :=
  u.index < Config.lR ∧ u.mode = regionOf u.index ∧
    (u.constructed = true → u.words.full Config.lR) ∧ (u.constructed = false → u.words = []) ∧
    (u.started = true → u.constructed = true)

/-- The invariant of the machine. -/
abbrev State.Inv (s : State) : Prop := s.unitS.Legal ∧ s.unitL.Legal

/-- Unit S holds an instance, in a legal state. -/
abbrev UnitS.Ready (u : UnitS) : Prop := u.constructed = true ∧ u.Legal

/-- Unit L holds an instance, in a legal state. -/
abbrev UnitL.Ready (u : UnitL) : Prop := u.constructed = true ∧ u.Legal

/-- The array of `R` words holds the value `w a` at every address `a`. -/
abbrev Memory.Holds (m : Memory) (R : Nat) (w : Nat → Word) : Prop := ∀ a, a < R → m.read a = some (w a)

/-- Every word of the array that holds a value is 0. -/
abbrev Memory.allZero (m : Memory) : Prop := ∀ cell ∈ m, cell.2 = 0#32

/-- `k` copies of one instruction (`.rep k, CMD`, R79), stopping at the first fault or refusal. -/
def runRep (i : Instr) : Nat → State → Result
  | 0, s => .next s
  | k + 1, s =>
    match exec i s with
    | .next t => runRep i k t
    | .fault r => .fault r
    | .refused r => .refused r

/-- The instructions of unit S (R20, R72). -/
def ofUnitS : Instr → Bool
  | .seeds _ | .nexts => true
  | .seedl _ _ | .temper _ | .nextl => false
  | .nextlCase1 | .nextlCase2 | .nextlCase3 | .nextlCase4 | .nextlCase5 | .nextlCase6 => false

/-- A step leaves a safe state: no fault, and no refusal but for want of host input (R209, R242). -/
def SafeStep (s : State) : Prop :=
  (∃ t, step s = .next t) ∨
  (step s = .refused .noHostInput ∧ s.inputs = []) ∨
  (step s = .refused .incompletePayload ∧ decode (leadingWords s.inputs) = .incomplete)

end Sys2Proof.Machine
end

