-- ==== Sys2Proof/Certificates/Slice0/Obligations.lean ====
section
/-! DEFINITION. The statements for the provers. Each docstring names the rule of the spec it formalises, and the log
entry where a clause rests on a choice of the model. -/

open Sys2Proof Sys2Proof.Machine

/-! Terms the statements share. -/

namespace Sys2Proof.Claims

/-- `s` with one more response given. -/
def answered (s : State) (status : BitVec 4) (sample : BitVec 64) : State :=
  { s with responses := s.responses ++ [{ status, sample }] }

/-- The instruction, run in `s`, gives a next state and answers with the status `code`. -/
def AnswersWith (i : Instr) (s : State) (code : BitVec 4) : Prop :=
  ∃ t sample, exec i s = .next t ∧ t.responses = s.responses ++ [{ status := code, sample }]

/-- The command word is one of the five cases of R77. -/
def IllegalByR77 (c : Word) : Prop :=
  let op := c.toNat / 2 ^ 28
  let reserved := c.toNat / 2 ^ 16 % 2 ^ 10
  let n := c.toNat % 2 ^ 16
  let t := c.getLsbD 27 = true
  let p := c.getLsbD 26 = true
  (op = 0 ∨ 6 ≤ op) ∨ reserved ≠ 0 ∨
    (t ∧ (op = 1 ∨ op = 4 ∨ op = 5)) ∨
    (p ∧ (op = 3 ∨ op = 4 ∨ op = 5)) ∨
    (n ≠ 0 ∧ (op = 3 ∨ op = 4 ∨ op = 5 ∨ ((op = 1 ∨ op = 2) ∧ ¬ p)))

/-- `z1`, `z2` and the two new words of unit S at index `i`, where the array holds `w` (R111). -/
def smallZ1At (w : Nat → Word) (i : Nat) : Word := w i ^^^ mixRight 8 (w ((i + 13) % 32))
def smallZ2At (w : Nat → Word) (i : Nat) : Word :=
  mixLeft 19 (w ((i + 9) % 32)) ^^^ mixLeft 14 (w ((i + 5) % 32))
def smallNewV1At (w : Nat → Word) (i : Nat) : Word := smallZ1At w i ^^^ smallZ2At w i
def smallNewV0At (w : Nat → Word) (i : Nat) : Word :=
  mixLeft 11 (w ((i + 31) % 32)) ^^^ mixLeft 7 (smallZ1At w i) ^^^ mixLeft 13 (smallZ2At w i)

/-- The two new words of unit L from the six words read (R132 to R135, with the recalled amounts of log 9). -/
def largeNewV1At (v0 vM1 vM2 vM3 : Word) : Word :=
  (mixLeft 25 v0 ^^^ mixRight 27 vM1) ^^^ (shiftRightOnly 9 vM2 ^^^ mixRight 1 vM3)
def largeNewV0At (v0 vM1 vM2 vM3 vRm1 vRm2 : Word) : Word :=
  ((vRm1 &&& 0x80000000#32) ||| (vRm2 &&& 0x7FFFFFFF#32)) ^^^
    mixLeft 9 (mixLeft 25 v0 ^^^ mixRight 27 vM1) ^^^
    mixLeft 21 (shiftRightOnly 9 vM2 ^^^ mixRight 1 vM3) ^^^
    mixRight 21 (largeNewV1At v0 vM1 vM2 vM3)

/-- Unit L after a step that reads `a0 … aR2`, writes at `a0` and `aR1`, and moves to `(i', m')`, where the array holds
`w`. -/
def largeUnitAfter (u : UnitL) (w : Nat → Word) (a0 a1 a2 a3 aR1 aR2 i' : Nat) (m' : Mode) : UnitL :=
  { u with
    words := (u.words.write a0 (largeNewV1At (w a0) (w a1) (w a2) (w a3))).write aR1
      (largeNewV0At (w a0) (w a1) (w a2) (w a3) (w aR1) (w aR2))
    index := i'
    mode := m' }

/-- The machine after a case rule of unit L with these addresses and this next control state. -/
def caseResult (s : State) (w : Nat → Word) (a0 a1 a2 a3 aR1 aR2 i' : Nat) (m' : Mode) : State :=
  { s with unitL := largeUnitAfter s.unitL w a0 a1 a2 a3 aR1 aR2 i' m' }

/-- Bitwise exclusive or of the words read, tap by tap. -/
def xorSmall (x y : SmallTaps) : SmallTaps :=
  ⟨x.w0 ^^^ y.w0, x.wR ^^^ y.wR, x.w1 ^^^ y.w1, x.w2 ^^^ y.w2, x.w3 ^^^ y.w3⟩
def xorLarge (x y : LargeTaps) : LargeTaps :=
  ⟨x.v0 ^^^ y.v0, x.vM1 ^^^ y.vM1, x.vM2 ^^^ y.vM2, x.vM3 ^^^ y.vM3, x.vRm1 ^^^ y.vRm1, x.vRm2 ^^^ y.vRm2⟩
def xorNew (x y : NewWords) : NewWords := ⟨x.newV1 ^^^ y.newV1, x.newV0 ^^^ y.newV0⟩

end Sys2Proof.Claims

open Sys2Proof.Claims

/-! Encoding. -/

/-- Decoding the encoding of a well-formed instruction gives it back, with whatever follows in the stream (the inverse
that 30_encoding.md section 7 derives). -/
def Obligations.EncodedInstructionsDecodeBack : Prop :=
  ∀ i : Instr, i.wf = true →
    decodeCode (encode i) = some i ∧
    ∀ ws rest, encode i = .cmd32 ws → decode (ws ++ rest) = .instr i ws.length

/-- The other direction: what decodes to an instruction is that instruction's one encoding. -/
def Obligations.DecodedWordsAreTheOnlyEncoding : Prop :=
  (∀ ws i used, decode ws = .instr i used →
    i.wf = true ∧ i.isCommand = true ∧ used ≤ ws.length ∧ encode i = .cmd32 (ws.take used)) ∧
  (∀ m x, decodeMode m = some x → encode x.caseRule = .mode3 m)

/-- R77: a command word is illegal exactly in its five cases; the error consumes the word alone and touches no state. -/
def Obligations.IllegalCommandWords : Prop :=
  (∀ c rest, decode (c :: rest) = .illegal ↔ IllegalByR77 c) ∧
  (∀ (s : State) c rest, s.inputs = .word c :: rest → IllegalByR77 c →
    step s = .next (answered { s with inputs := rest } 5#4 0#64))

/-- R72: the match and mask of each command, its operand fields, and the illegal word that matches the table. -/
def Obligations.CommandMatchAndMask : Prop :=
  ∀ c : Word,
    let t := c.getLsbD 27
    let p := c.getLsbD 26
    let n := c.toNat % 65536
    (c &&& 0xFBFF0000#32 = 0x10000000#32 →
      decodeHeader c = if p then some (.seeds (some n)) else if n = 0 then some (.seeds none) else none) ∧
    (c &&& 0xF3FF0000#32 = 0x20000000#32 →
      decodeHeader c = if p then some (.seedl t (some n)) else if n = 0 then some (.seedl t none) else none) ∧
    (c &&& 0xF7FFFFFF#32 = 0x30000000#32 → decodeHeader c = some (.temper t)) ∧
    (c &&& 0xFFFFFFFF#32 = 0x40000000#32 → decodeHeader c = some .nexts) ∧
    (c &&& 0xFFFFFFFF#32 = 0x50000000#32 → decodeHeader c = some .nextl) ∧
    (decodeHeader c ≠ none →
      c &&& 0xFBFF0000#32 = 0x10000000#32 ∨ c &&& 0xF3FF0000#32 = 0x20000000#32 ∨
      c &&& 0xF7FFFFFF#32 = 0x30000000#32 ∨ c &&& 0xFFFFFFFF#32 = 0x40000000#32 ∨
      c &&& 0xFFFFFFFF#32 = 0x50000000#32)

/-- A few words written out in hexadecimal, with what they stand for: seven of the table in 95_test_vectors.md section 6,
two constructions with short payloads written from the field table of 30_encoding.md section 1, and the mode value 3. That
`decodeTableWord` reads an 8-bit value as the mode field is the model's choice (log 5). -/
def Obligations.SpecExampleWordsDecode : Prop :=
  decode [0x10000000#32] = .instr (.seeds none) 1 ∧
  decode [0x14000000#32] = .instr (.seeds (some [])) 1 ∧
  decode [0x14000002#32, 7#32, 8#32] = .instr (.seeds (some [7#32, 8#32])) 3 ∧
  decode [0x28000000#32] = .instr (.seedl true none) 1 ∧
  decode [0x24000001#32, 9#32] = .instr (.seedl false (some [9#32])) 2 ∧
  decode [0x38000000#32] = .instr (.temper true) 1 ∧
  decode [0x40000000#32] = .instr .nexts 1 ∧
  decode [0x50000000#32] = .instr .nextl 1 ∧
  decode [0x50800000#32] = .illegal ∧
  decodeTableWord 8 0b011 = some .nextlCase3

/-- A step runs the command the decoder reads at the front of the command stream, in the state with that command's
words taken (R58). -/
def Obligations.StepRunsTheDecodedCommand : Prop :=
  ∀ (s : State) i used, decode (leadingWords s.inputs) = .instr i used →
    step s = exec i { s with inputs := s.inputs.drop used }

/-- A legal command word takes exactly the payload it announces, whatever follows and whatever the command answers
(R73, R78): the next command word is the word after the payload. -/
def Obligations.CommandTakesItsWholePayload : Prop :=
  ∀ (s : State) c h payload rest, decodeHeader c = some h → payload.length = h.payloadLength →
    s.inputs = .word c :: (payload.map .word ++ rest) →
    step s = exec (h.attach payload) { s with inputs := rest } ∧
    ∀ t, step s = .next t → t.inputs = rest

/-! Primitives and output. -/

/-- `mixRight` (40_bitmix.md): the definition, the corner cases, the bits it keeps, and that it is a bijection. -/
def Obligations.MixRightKeepsTopBitsAndIsBijective : Prop :=
  (∀ (t : ShiftAmount) (v : Word), mixRight t v = v ^^^ (v >>> t.val)) ∧
  (∀ v : Word, mixRight 0 v = 0#32) ∧
  (∀ t : ShiftAmount, mixRight t 0#32 = 0#32) ∧
  (∀ v : Word, mixRight 31 v = v ^^^ BitVec.setWidth 32 (BitVec.ofBool (v.getLsbD 31))) ∧
  (∀ t : ShiftAmount, t ≠ 0 → ∀ (v : Word) (i : Nat), 32 - t.val ≤ i → i < 32 → (mixRight t v).getLsbD i = v.getLsbD i) ∧
  (∀ t : ShiftAmount, t ≠ 0 → Function.Bijective (mixRight t)) ∧
  mixRight 8 0xFFFFFFFF#32 = 0xFF000000#32

/-- `mixLeft` (40_bitmix.md): the definition, the corner cases, the bits it keeps, and that it is a bijection. -/
def Obligations.MixLeftKeepsLowBitsAndIsBijective : Prop :=
  (∀ (t : ShiftAmount) (v : Word), mixLeft t v = v ^^^ BitVec.ofNat 32 (v.toNat * 2 ^ t.val)) ∧
  (∀ v : Word, mixLeft 0 v = 0#32) ∧
  (∀ t : ShiftAmount, mixLeft t 0#32 = 0#32) ∧
  (∀ v : Word, mixLeft 31 v = v ^^^ (BitVec.setWidth 32 (BitVec.ofBool (v.getLsbD 0)) <<< 31)) ∧
  (∀ t : ShiftAmount, t ≠ 0 → ∀ (v : Word) (i : Nat), i < t.val → (mixLeft t v).getLsbD i = v.getLsbD i) ∧
  (∀ t : ShiftAmount, t ≠ 0 → Function.Bijective (mixLeft t)) ∧
  mixLeft 7 0x00000001#32 = 0x00000081#32

/-- R102: `shiftRightOnly` is the plain logical shift; it loses the low bits. -/
def Obligations.ShiftRightOnlyLosesTheLowBits : Prop :=
  (∀ (t : ShiftAmount) (v : Word), shiftRightOnly t v = v >>> t.val) ∧
  (∀ v : Word, shiftRightOnly 0 v = v) ∧
  (∀ (t : ShiftAmount) (v : Word) (i : Nat), 32 - t.val ≤ i → i < 32 → (shiftRightOnly t v).getLsbD i = false) ∧
  (∀ (t : ShiftAmount) (v v' : Word), (∀ i : Nat, t.val ≤ i → v.getLsbD i = v'.getLsbD i) → shiftRightOnly t v = shiftRightOnly t v') ∧
  (∀ t : ShiftAmount, t ≠ 0 → ¬ Function.Bijective (shiftRightOnly t)) ∧
  shiftRightOnly 9 0xDEADBEEF#32 = 0x006F56DF#32

/-- The primitives and the words a step writes are linear over bitwise exclusive or (the inference of 40_bitmix.md,
41_small_well1024.md and 42_large_well19937.md). For unit L with the recalled parameters of log 9. -/
def Obligations.StepsAreLinear : Prop :=
  (∀ (t : ShiftAmount) (a b : Word), mixRight t (a ^^^ b) = mixRight t a ^^^ mixRight t b) ∧
  (∀ (t : ShiftAmount) (a b : Word), mixLeft t (a ^^^ b) = mixLeft t a ^^^ mixLeft t b) ∧
  (∀ (t : ShiftAmount) (a b : Word), shiftRightOnly t (a ^^^ b) = shiftRightOnly t a ^^^ shiftRightOnly t b) ∧
  (∀ (c : Config.SmallParams) (x y : SmallTaps), smallNewWords c (xorSmall x y) = xorNew (smallNewWords c x) (smallNewWords c y)) ∧
  (∀ x y : LargeTaps, largeNewWords Config.large (xorLarge x y) =
    xorNew (largeNewWords Config.large x) (largeNewWords Config.large y))

/-- `Temper` (43_output.md): the two passes, zero, linearity, bijection, and the low 8 bits. -/
def Obligations.TemperIsLinearBijectiveAndKeepsTheLowByte : Prop :=
  (∀ y0 : Word, ∃ y1 : Word, y1 = y0 ^^^ ((y0 <<< 7) &&& 0xE46E1700#32) ∧ temper y0 = y1 ^^^ ((y1 <<< 15) &&& 0x9B868000#32)) ∧
  temper 0#32 = 0#32 ∧
  (∀ a b : Word, temper (a ^^^ b) = temper a ^^^ temper b) ∧
  Function.Bijective temper ∧
  (∀ (y : Word) (i : Nat), i < 8 → (temper y).getLsbD i = y.getLsbD i) ∧
  temper 0x80000000#32 = 0x80000000#32 ∧
  temper 0x00000001#32 = 0x00008001#32 ∧ temper 0x00000210#32 = 0x01000210#32 ∧
  temper 0xFFFFFFFF#32 = 0x8B9768FF#32

/-- R173: the binary64 pattern of a word by the position `p` of its highest set bit, its number being the exact
`Scale(y)`, and never a negative, subnormal, infinite or NaN pattern. -/
def Obligations.SampleBitsFollowTheBinary64Layout : Prop :=
  sampleBits 0#32 = 0#64 ∧
  (∀ (y : Word) (p : Nat), 2 ^ p ≤ y.toNat → y.toNat < 2 ^ (p + 1) →
    (sampleBits y).toNat = (991 + p) * 2 ^ 52 + (y.toNat - 2 ^ p) * 2 ^ (52 - p)) ∧
  (∀ y : Word, binary64Value (sampleBits y) = some (scale y)) ∧
  (∀ y : Word, (sampleBits y).getLsbD 63 = false ∧ (sampleBits y ≠ 0#64 →
    991 ≤ ((sampleBits y).extractLsb' 52 11).toNat ∧ ((sampleBits y).extractLsb' 52 11).toNat ≤ 1022)) ∧
  sampleBits 0x00000001#32 = 0x3DF0000000000000#64 ∧ sampleBits 0x00000081#32 = 0x3E60200000000000#64 ∧
  sampleBits 0x80000000#32 = 0x3FE0000000000000#64 ∧ sampleBits 0xFFFFFFFF#32 = 0x3FEFFFFFFFE00000#64 ∧
  sampleBits 0x12345678#32 = 0x3FB2345678000000#64

/-- The sample's number is exactly the word divided by 2^32, lies in `[0, 1)`, and determines the word (the inference of
43_output.md, with the binary64 format of log 12). -/
def Obligations.SampleIsTheExactScaledWord : Prop :=
  (∀ y : Word, scale y = (y.toNat : Rat) / 4294967296) ∧
  (∀ y : Word, 0 ≤ scale y ∧ scale y < 1) ∧
  Function.Injective sampleBits ∧
  scale 0x80000000#32 = 1 / 2 ∧ scale 0xFFFFFFFF#32 = 1 - 1 / 4294967296

/-! Unit S. -/

/-- R111, R112: NEXTS on an instance, from the words before the step, NEXTS without one, and its command word. -/
def Obligations.NextsComputesTheRecurrence : Prop :=
  (∀ (s : State) (w : Nat → Word), s.unitS.constructed = true → s.unitS.index < 32 → s.unitS.words.Holds 32 w →
    let i := s.unitS.index
    let aR := (i + 31) % 32
    exec .nexts s = .next (answered
      { s with unitS := { s.unitS with
          words := (s.unitS.words.write i (smallNewV1At w i)).write aR (smallNewV0At w i)
          index := aR } }
      0#4 (sampleBits (smallNewV0At w i)))) ∧
  (∀ s : State, s.unitS.constructed = false → exec .nexts s = .next (answered s 3#4 0#64)) ∧
  encode .nexts = .cmd32 [0x40000000#32]

/-- The frame of NEXTS: at the addresses of the step (the model's `smallAddrs`) only the current and the boundary word
change; nothing of unit L, no flag, and no input. -/
def Obligations.NextsFrame : Prop :=
  ∀ s t : State, exec .nexts s = .next t →
    (∀ a, a ≠ (smallAddrs Config.small s.unitS.index).a0 → a ≠ (smallAddrs Config.small s.unitS.index).aR →
      t.unitS.words.read a = s.unitS.words.read a) ∧
    t.unitS.constructed = s.unitS.constructed ∧ t.unitL = s.unitL ∧ t.inputs = s.inputs ∧
    (s.unitS.constructed = false → t.unitS = s.unitS)

/-- The five addresses of a step of unit S lie in the array and are pairwise different (41_small_well1024.md). -/
def Obligations.SmallStepAddressesAreDistinct : Prop :=
  ∀ i : Nat,
    let a := smallAddrs Config.small i
    a = ⟨i % 32, (i + 31) % 32, (i + 13) % 32, (i + 9) % 32, (i + 5) % 32⟩ ∧
    (∀ x ∈ [a.a0, a.aR, a.a1, a.a2, a.a3], x < 32) ∧ [a.a0, a.aR, a.a1, a.a2, a.a3].Nodup

/-- `k` consecutive NEXTS all answer OK and count the index down by one modulo 32 each; the index is back exactly after
the multiples of 32 (the inference of 41_small_well1024.md section on the index sequence). -/
def Obligations.NextsIndexCycle : Prop :=
  ∀ (s : State) (k : Nat), s.unitS.Ready →
    ∃ t rs, runRep .nexts k s = .next t ∧ t.unitS.Ready ∧ t.unitS.index = (s.unitS.index + 31 * k) % 32 ∧
      (t.unitS.index = s.unitS.index ↔ 32 ∣ k) ∧
      t.responses = s.responses ++ rs ∧ rs.length = k ∧ ∀ r ∈ rs, r.status = 0#4

/-! Unit L. -/

/-- Each case rule on its region, from the words before the step, and its mode value (42_large_well19937.md sections 1 and
2). With the recalled amounts and masks of D10 to D12 (log 9). That a case rule by itself marks no flag and adds no
response is the model's choice (log 5). -/
def Obligations.CaseRulesComputeTheStep : Prop :=
  ([Instr.nextlCase1, .nextlCase2, .nextlCase3, .nextlCase4, .nextlCase5, .nextlCase6].map encode =
    [Code.mode3 0b001#3, .mode3 0b010#3, .mode3 0b011#3, .mode3 0b100#3, .mode3 0b101#3, .mode3 0b110#3]) ∧
  ∀ (s : State) (w : Nat → Word), s.unitL.constructed = true → s.unitL.words.Holds 624 w →
    let i := s.unitL.index
    (i = 0 → exec .nextlCase1 s = .next (caseResult s w 0 70 179 449 623 622 623 .case3)) ∧
    (i = 1 → exec .nextlCase2 s = .next (caseResult s w 1 71 180 450 0 623 0 .case1)) ∧
    (554 ≤ i → i ≤ 623 → exec .nextlCase3 s =
      .next (caseResult s w i (i - 554) (i - 445) (i - 175) (i - 1) (i - 2) (i - 1)
        (if i - 1 < 554 then .case5 else .case3))) ∧
    (175 ≤ i → i ≤ 444 → exec .nextlCase4 s =
      .next (caseResult s w i (i + 70) (i + 179) (i - 175) (i - 1) (i - 2) (i - 1)
        (if i - 1 < 175 then .case6 else .case4))) ∧
    (445 ≤ i → i ≤ 553 → exec .nextlCase5 s =
      .next (caseResult s w i (i + 70) (i - 445) (i - 175) (i - 1) (i - 2) (i - 1)
        (if i - 1 < 445 then .case4 else .case5))) ∧
    (2 ≤ i → i ≤ 174 → exec .nextlCase6 s =
      .next (caseResult s w i (i + 70) (i + 179) (i + 449) (i - 1) (i - 2) (i - 1)
        (if i - 1 = 1 then .case2 else .case6)))

/-- The frame of a case rule: outside the two addresses its form gives (the model's `largeAddrs`), no word changes; no
flag, nothing of unit S, no input, and no response but the error's (log 5). -/
def Obligations.CaseRulesFrame : Prop :=
  ∀ (m : Mode) (s t : State), exec m.caseRule s = .next t →
    (∀ a : Nat, (a : Int) ≠ (largeAddrs m s.unitL.index).v0 → (a : Int) ≠ (largeAddrs m s.unitL.index).vRm1 →
      t.unitL.words.read a = s.unitL.words.read a) ∧
    t.unitL.tempering = s.unitL.tempering ∧ t.unitL.constructed = s.unitL.constructed ∧
    t.unitL.started = s.unitL.started ∧ t.unitS = s.unitS ∧ t.inputs = s.inputs ∧
    (t.responses = s.responses ∨ (t.unitL = s.unitL ∧ ∃ r, r.status ≠ 0#4 ∧ t.responses = s.responses ++ [r]))

/-- The model's reading of 60_exceptions.md on IndexOutOfRange (log 6): on an instance, a case rule whose mode is not
the region of the index answers IndexOutOfRange and changes nothing; without an instance it answers NotConstructed. -/
def Obligations.CaseRuleOutsideItsRegionIsAnError : Prop :=
  (∀ (m : Mode) (s : State) (w : Nat → Word), s.unitL.constructed = true → s.unitL.words.Holds 624 w →
    (624 ≤ s.unitL.index ∨ m ≠ regionOf s.unitL.index) →
    exec m.caseRule s = .next (answered s 6#4 0#64)) ∧
  (∀ (m : Mode) (s : State), s.unitL.constructed = false → exec m.caseRule s = .next (answered s 3#4 0#64))

/-- R145: NEXTL runs the case rule of its mode, marks the instance started, and answers the sample of the word at the
new index, tempered exactly when the flag is set; without an instance it answers NotConstructed; off the mode's region
it answers IndexOutOfRange, as R206 has all errors answered. -/
def Obligations.NextlRunsTheCaseOfItsMode : Prop :=
  (∀ s : State, s.unitL.Ready →
    ∃ t y0, exec s.unitL.mode.caseRule s = .next t ∧ t.unitL.words.read t.unitL.index = some y0 ∧
      t = { s with unitL := { t.unitL with tempering := s.unitL.tempering, constructed := true } } ∧
      exec .nextl s = .next (answered { t with unitL := { t.unitL with started := true } } 0#4
        (sampleBits (if s.unitL.tempering = true then temper y0 else y0)))) ∧
  (∀ s : State, s.unitL.constructed = false → exec .nextl s = .next (answered s 3#4 0#64)) ∧
  (∀ (s : State) (w : Nat → Word), s.unitL.constructed = true → s.unitL.words.Holds 624 w →
    (624 ≤ s.unitL.index ∨ s.unitL.mode ≠ regionOf s.unitL.index) →
    exec .nextl s = .next (answered s 6#4 0#64)) ∧
  encode .nextl = .cmd32 [0x50000000#32]

/-- The frame of NEXTL: outside the two addresses of its mode's form, no word changes; never the tempering flag,
`constructed`, or anything of unit S. -/
def Obligations.NextlFrame : Prop :=
  ∀ s t : State, exec .nextl s = .next t →
    (∀ a : Nat, (a : Int) ≠ (largeAddrs s.unitL.mode s.unitL.index).v0 →
      (a : Int) ≠ (largeAddrs s.unitL.mode s.unitL.index).vRm1 →
      t.unitL.words.read a = s.unitL.words.read a) ∧
    t.unitL.tempering = s.unitL.tempering ∧ t.unitL.constructed = s.unitL.constructed ∧ t.unitS = s.unitS ∧
    t.inputs = s.inputs ∧
    (t.unitL.started = s.unitL.started ∨ (s.unitL.constructed = true ∧ t.unitL.started = true))

/-- R143: the transition table, with the comparisons on the new index. -/
def Obligations.ModeTransitionTable : Prop :=
  ∀ s : State, s.unitL.Ready → ∃ t, exec .nextl s = .next t ∧
    match s.unitL.mode with
    | .case1 => t.unitL.index = 623 ∧ t.unitL.mode = .case3
    | .case2 => t.unitL.index = 0 ∧ t.unitL.mode = .case1
    | .case3 => t.unitL.index + 1 = s.unitL.index ∧
        t.unitL.mode = if t.unitL.index < 554 then .case5 else .case3
    | .case5 => t.unitL.index + 1 = s.unitL.index ∧
        t.unitL.mode = if t.unitL.index < 445 then .case4 else .case5
    | .case4 => t.unitL.index + 1 = s.unitL.index ∧
        t.unitL.mode = if t.unitL.index < 175 then .case6 else .case4
    | .case6 => t.unitL.index + 1 = s.unitL.index ∧
        t.unitL.mode = if t.unitL.index = 1 then .case2 else .case6

/-- The six cases compute the single modular recurrence, and the mode stays the region of the index (the inference of
42_large_well19937.md section 5). With the recalled parameters of log 9. -/
def Obligations.SixCasesEqualTheModularRecurrence : Prop :=
  ∀ (s : State) (w : Nat → Word), s.unitL.Ready → s.unitL.words.Holds 624 w →
    let i := s.unitL.index
    let y0 := largeNewV0At (w i) (w ((i + 70) % 624)) (w ((i + 179) % 624)) (w ((i + 449) % 624))
      (w ((i + 623) % 624)) (w ((i + 622) % 624))
    exec .nextl s = .next (answered
      { s with unitL := { largeUnitAfter s.unitL w i ((i + 70) % 624) ((i + 179) % 624) ((i + 449) % 624)
          ((i + 623) % 624) ((i + 622) % 624) ((i + 623) % 624) (regionOf ((i + 623) % 624)) with started := true } }
      0#4 (sampleBits (if s.unitL.tempering = true then temper y0 else y0)))

/-- The index-range analysis (the inference of 42_large_well19937.md): the six addresses of a mode's form all lie in
`[0, 624)` exactly when the index is in the mode's region; there they are pairwise different and equal the modular
addresses. -/
def Obligations.AddressFormsFitExactlyTheirRegion : Prop :=
  (∀ (m : Mode) (i : Nat),
    (let a := largeAddrs m i
     ∀ x ∈ [a.v0, a.vM1, a.vM2, a.vM3, a.vRm1, a.vRm2], 0 ≤ x ∧ x < 624) ↔ (i < 624 ∧ m = regionOf i)) ∧
  (∀ i : Nat, i < 624 →
    let a := largeAddrs (regionOf i) i
    a = ⟨i, ((i + 70) % 624 : Nat), ((i + 179) % 624 : Nat), ((i + 449) % 624 : Nat), ((i + 623) % 624 : Nat),
      ((i + 622) % 624 : Nat)⟩ ∧
    [a.v0, a.vM1, a.vM2, a.vM3, a.vRm1, a.vRm2].Nodup)

/-- `k` consecutive NEXTL all answer OK and take the index round the circle, the mode being its region; the control
state is back exactly after the multiples of 624; and over one cycle the modes execute 1, 70, 109, 270, 173 and 1 steps
(the inference of 42_large_well19937.md section 3; C1). -/
def Obligations.ModeCycleHasPeriod624 : Prop :=
  (∀ (s : State) (k : Nat), s.unitL.Ready →
    ∃ t rs, runRep .nextl k s = .next t ∧ t.unitL.Ready ∧ t.unitL.index = (s.unitL.index + 623 * k) % 624 ∧
      ((t.unitL.index = s.unitL.index ∧ t.unitL.mode = s.unitL.mode) ↔ 624 ∣ k) ∧
      t.responses = s.responses ++ rs ∧ rs.length = k ∧ ∀ r ∈ rs, r.status = 0#4) ∧
  ([Mode.case1, .case3, .case5, .case4, .case6, .case2].map fun m =>
    ((List.range 624).filter fun k => regionOf (623 * k % 624) = m).length) = [1, 70, 109, 270, 173, 1]

/-- Tempering toggles the output only (the inference of 42_large_well19937.md section 5): over any number of NEXTL two
instances that differ in the flag alone go through the same words, index and mode, and answer `y` and `Temper(y)` for
the same output words `y`. -/
def Obligations.TemperingTogglesOutputOnly : Prop :=
  ∀ (s : State) (k : Nat), s.unitL.Ready →
    ∃ t t' ys, runRep .nextl k { s with unitL := { s.unitL with tempering := false } } = .next t ∧
      runRep .nextl k { s with unitL := { s.unitL with tempering := true } } = .next t' ∧
      t'.unitL = { t.unitL with tempering := true } ∧ List.length ys = k ∧
      t.responses = s.responses ++ ys.map (fun y => { status := 0#4, sample := sampleBits y }) ∧
      t'.responses = s.responses ++ ys.map (fun y => { status := 0#4, sample := sampleBits (temper y) })

/-- The dead bits (the inference of 42_large_well19937.md section 5 and 10_state.md section 6, with the masks of log 9):
the low 31 bits of the word at circular distance -1 from the index have no influence. -/
def Obligations.LowBitsOfTheBoundaryWordAreDead : Prop :=
  ∀ (s : State) (v v' : Word), s.unitL.Ready →
    s.unitL.words.read ((s.unitL.index + 623) % 624) = some v → v'.getLsbD 31 = v.getLsbD 31 →
    exec .nextl { s with unitL := { s.unitL with words := s.unitL.words.write ((s.unitL.index + 623) % 624) v' } } =
      exec .nextl s

/-- The zero state is a fixed point of both recurrences, with or without tempering: any number of steps leaves every
word 0 and answers the sample 0.0 each time (the inference of 41_small_well1024.md and 42_large_well19937.md). -/
def Obligations.ZeroStateStaysZero : Prop :=
  (∀ (s : State) (k : Nat), s.unitS.Ready → s.unitS.words.allZero →
    ∃ t, runRep .nexts k s = .next t ∧ t.unitS.words.allZero ∧
      t.responses = s.responses ++ List.replicate k { status := 0#4, sample := 0#64 }) ∧
  (∀ (s : State) (k : Nat), s.unitL.Ready → s.unitL.words.allZero →
    ∃ t, runRep .nextl k s = .next t ∧ t.unitL.words.allZero ∧
      t.responses = s.responses ++ List.replicate k { status := 0#4, sample := 0#64 })

/-! Construction and configuration. -/

/-- R180: SEEDS in every form, and its encoding; `S.index` starts at the default 0 of D9 (log 10). -/
def Obligations.SeedsConstructsOrFails : Prop :=
  (∀ seed, ∃ c, encode (.seeds seed) = .cmd32 (c :: seed.getD []) ∧ opField c = 1#4 ∧ pField c = seed.isSome) ∧
  ∀ s : State,
    exec (.seeds none) s = .next (answered s 1#4 0#64) ∧
    (∀ ws, ws.length ≠ 32 → exec (.seeds (some ws)) s = .next (answered s 2#4 0#64)) ∧
    (∀ ws, ws.length = 32 →
      ∃ m : Memory, exec (.seeds (some ws)) s =
          .next (answered { s with unitS := { words := m, index := 0, constructed := true } } 0#4 0#64) ∧
        m.wf ∧ ∀ k, m.read k = ws[k]?)

/-- R181: SEEDL in every form, and its encoding. -/
def Obligations.SeedlConstructsOrFails : Prop :=
  (∀ t seed, ∃ c, encode (.seedl t seed) = .cmd32 (c :: seed.getD []) ∧
    opField c = 2#4 ∧ tField c = t ∧ pField c = seed.isSome) ∧
  ∀ (s : State) (t : Bool),
    exec (.seedl t none) s = .next (answered s 1#4 0#64) ∧
    (∀ ws, ws.length ≠ 624 → exec (.seedl t (some ws)) s = .next (answered s 2#4 0#64)) ∧
    (∀ ws, ws.length = 624 →
      ∃ m : Memory, exec (.seedl t (some ws)) s =
          .next (answered { s with unitL := {
            words := m, index := 0, mode := .case1, tempering := t, constructed := true, started := false } } 0#4 0#64) ∧
        m.wf ∧ ∀ k, m.read k = ws[k]?)

/-- R182: TEMPER in every state, and its encoding; the rejection does not depend on `t`. -/
def Obligations.TemperSetsTheSwitchBeforeTheFirstSample : Prop :=
  (∀ t, ∃ c, encode (.temper t) = .cmd32 [c] ∧ opField c = 3#4 ∧ tField c = t) ∧
  ∀ (s : State) (t : Bool),
    (s.unitL.constructed = false → exec (.temper t) s = .next (answered s 3#4 0#64)) ∧
    (s.unitL.constructed = true → s.unitL.started = true → exec (.temper t) s = .next (answered s 4#4 0#64)) ∧
    (s.unitL.constructed = true → s.unitL.started = false →
      exec (.temper t) s = .next (answered { s with unitL := { s.unitL with tempering := t } } 0#4 0#64))

/-- R183: a construction keeps nothing of the old instance, and a failed one leaves it exactly as it was. -/
def Obligations.ReseedingKeepsNothing : Prop :=
  (∀ seed (s s' t t' : State), exec (.seeds seed) s = .next t → exec (.seeds seed) s' = .next t' →
    (t.unitS = t'.unitS ∧ t.unitS.constructed = true ∧ AnswersWith (.seeds seed) s 0#4) ∨
    (t.unitS = s.unitS ∧ t'.unitS = s'.unitS ∧ ¬ AnswersWith (.seeds seed) s 0#4)) ∧
  (∀ b seed (s s' t t' : State), exec (.seedl b seed) s = .next t → exec (.seedl b seed) s' = .next t' →
    (t.unitL = t'.unitL ∧ t.unitL.constructed = true ∧ t.unitL.started = false ∧
      AnswersWith (.seedl b seed) s 0#4) ∨
    (t.unitL = s.unitL ∧ t'.unitL = s'.unitL ∧ ¬ AnswersWith (.seedl b seed) s 0#4))

/-- The tempering switch is open from a successful SEEDL to the first successful NEXTL (70_reset_and_hazards.md on the
deadline): the last TEMPER wins, and after a sample every TEMPER is TemperingLocked. -/
def Obligations.SwitchIsOpenUntilTheFirstSample : Prop :=
  (∀ (s t : State) b ws a, exec (.seedl b (some ws)) s = .next t → ws.length = 624 →
    ∃ t', exec (.temper a) t = .next t' ∧ t'.unitL.tempering = a ∧
      ∀ a', ∃ t'', exec (.temper a') t' = .next t'' ∧ t''.unitL = { t.unitL with tempering := a' }) ∧
  (∀ (s t : State) a, s.unitL.Ready → exec .nextl s = .next t → exec (.temper a) t = .next (answered t 4#4 0#64))

/-! The whole machine. -/

/-- R20: no instruction of one unit reads or writes any state of the other. -/
def Obligations.UnitsDoNotInteract : Prop :=
  (∀ i (s s' t : State), ofUnitS i = true → s.unitS = s'.unitS → exec i s = .next t →
    t.unitL = s.unitL ∧
    ∃ t' rs, exec i s' = .next t' ∧ t'.unitS = t.unitS ∧
      t.responses = s.responses ++ rs ∧ t'.responses = s'.responses ++ rs) ∧
  (∀ i (s s' t : State), ofUnitS i = false → s.unitL = s'.unitL → exec i s = .next t →
    t.unitS = s.unitS ∧
    ∃ t' rs, exec i s' = .next t' ∧ t'.unitL = t.unitL ∧
      t.responses = s.responses ++ rs ∧ t'.responses = s'.responses ++ rs)

/-- The relative order of an instruction on unit S and one on unit L is unobservable (20_memory.md section 7): both
orders lead to the same units, and each instruction gets the same answer. -/
def Obligations.CommandsOnDifferentUnitsCommute : Prop :=
  ∀ i j (s t₁ t₂ : State), ofUnitS i = true → ofUnitS j = false →
    exec i s = .next t₁ → exec j t₁ = .next t₂ →
    ∃ u₁ u₂ ri rj, exec j s = .next u₁ ∧ exec i u₁ = .next u₂ ∧ u₂.unitS = t₂.unitS ∧ u₂.unitL = t₂.unitL ∧
      u₂.inputs = t₂.inputs ∧
      t₂.responses = s.responses ++ ri ++ rj ∧ u₂.responses = s.responses ++ rj ++ ri

/-- R74: a command gives exactly one response; only a successful NEXTS or NEXTL carries a sample. -/
def Obligations.EveryCommandAnswersOnce : Prop :=
  (∀ i (s t : State), i.isCommand = true → exec i s = .next t →
    ∃ r : Response, t.responses = s.responses ++ [r] ∧
      (r.sample ≠ 0#64 → r.status = 0#4 ∧ (i = .nexts ∨ i = .nextl)) ∧
      (r.status = 0#4 → i = .nexts ∨ i = .nextl → ∃ y, r.sample = sampleBits y)) ∧
  (∀ s t : State, step s = .next t → s.inputs.head? ≠ some .reset →
    ∃ r : Response, t.responses = s.responses ++ [r] ∧ r.status.toNat ≤ 6)

/-- R205: an error changes no field of either unit, answers the code with sample zero, consumes the command's words (an
illegal command word alone), saves nothing, and no later command depends on the responses given. -/
def Obligations.ErrorsChangeNothing : Prop :=
  (∀ i (s t : State) r, exec i s = .next t → t.responses = s.responses ++ [r] → r.status ≠ 0#4 →
    t = answered s r.status 0#64) ∧
  (∀ (s t : State) r, step s = .next t → t.responses = s.responses ++ [r] → r.status ≠ 0#4 →
    ∃ used, t = answered { s with inputs := s.inputs.drop used } r.status 0#64 ∧
      (r.status = 5#4 → used = 1) ∧ (∀ i k, decode (leadingWords s.inputs) = .instr i k → used = k)) ∧
  (∀ i (s t : State) rs, exec i s = .next t →
    ∃ t' new, exec i { s with responses := rs } = .next t' ∧ t.responses = s.responses ++ new ∧
      t' = { t with responses := rs ++ new })

/-- R202: which command raises which error, and exactly when; the response carries the code only. IndexOutOfRange
is decided on arrays whose words all hold values (R22, R28). -/
def Obligations.ErrorsExactlyWhen : Prop :=
  ∀ s : State,
    (∀ seed, AnswersWith (.seeds seed) s 1#4 ↔ seed = none) ∧
    (∀ t seed, AnswersWith (.seedl t seed) s 1#4 ↔ seed = none) ∧
    (∀ seed, AnswersWith (.seeds seed) s 2#4 ↔ ∃ ws, seed = some ws ∧ ws.length ≠ 32) ∧
    (∀ t seed, AnswersWith (.seedl t seed) s 2#4 ↔ ∃ ws, seed = some ws ∧ ws.length ≠ 624) ∧
    (AnswersWith .nexts s 3#4 ↔ s.unitS.constructed = false) ∧
    (AnswersWith .nextl s 3#4 ↔ s.unitL.constructed = false) ∧
    (∀ t, AnswersWith (.temper t) s 3#4 ↔ s.unitL.constructed = false) ∧
    (∀ t, AnswersWith (.temper t) s 4#4 ↔ s.unitL.constructed = true ∧ s.unitL.started = true) ∧
    ((∃ t sample, step s = .next t ∧ t.responses = s.responses ++ [⟨5#4, sample⟩]) ↔
      decode (leadingWords s.inputs) = .illegal) ∧
    (∀ w : Nat → Word, s.unitL.constructed = true → s.unitL.words.Holds 624 w →
      (AnswersWith .nextl s 6#4 ↔ 624 ≤ s.unitL.index ∨ s.unitL.mode ≠ regionOf s.unitL.index)) ∧
    (s.unitS.Ready → AnswersWith .nexts s 0#4) ∧ (s.unitL.Ready → AnswersWith .nextl s 0#4) ∧
    (∀ i code, i.isCommand = true → AnswersWith i s code → code ≠ 0#4 →
      exec i s = .next (answered s code 0#64) ∧
      ((code = 1#4 ∧ ((∃ x, i = .seeds x) ∨ ∃ t x, i = .seedl t x)) ∨
       (code = 2#4 ∧ ((∃ x, i = .seeds x) ∨ ∃ t x, i = .seedl t x)) ∨
       (code = 3#4 ∧ (i = .nexts ∨ i = .nextl ∨ ∃ t, i = .temper t)) ∨
       (code = 4#4 ∧ ∃ t, i = .temper t) ∨
       (code = 6#4 ∧ i = .nextl)))

/-- R209: on an instance, NEXTS and NEXTL always succeed, whatever the words hold. -/
def Obligations.SteppingCannotFail : Prop :=
  (∀ s : State, s.unitS.Ready → AnswersWith .nexts s 0#4) ∧
  (∀ s : State, s.unitL.Ready → AnswersWith .nextl s 0#4)

/-- From a state of the invariant a step never faults, and is refused only for want of host input (log 7, log 8). -/
def Obligations.InvariantStepsAreSafe : Prop := ∀ s : State, s.Inv → SafeStep s

/-- Every step keeps the invariant: the indexes in range, the mode the region of its index, the words held exactly by
an instance, in canonical form, and no sample drawn without an instance (10_state.md section 5). -/
def Obligations.EveryStepKeepsTheInvariant : Prop :=
  ∀ s t : State, s.Inv → step s = .next t → t.Inv ∧ t.unitS.words.wf ∧ t.unitL.words.wf

/-- The invariant holds after reset. -/
def Obligations.ResetMeetsTheInvariant : Prop :=
  State.reset.Inv ∧ State.reset.unitS.words.wf ∧ State.reset.unitL.words.wf

/-- The field table of 10_state.md section 4, over all instructions: what an instruction may change, field by field. That a
case rule by itself does not set `started` is the model's choice (log 5). -/
def Obligations.FieldsChangeOnlyAsListed : Prop :=
  ∀ i (s t : State), exec i s = .next t →
    (t.unitS.words ≠ s.unitS.words → (∃ x, i = .seeds x) ∨ i = .nexts) ∧
    (t.unitS.index ≠ s.unitS.index → (∃ x, i = .seeds x) ∨ i = .nexts) ∧
    (t.unitS.constructed ≠ s.unitS.constructed → (∃ x, i = .seeds x) ∧ t.unitS.constructed = true) ∧
    (t.unitL.words ≠ s.unitL.words → (∃ b x, i = .seedl b x) ∨ i = .nextl ∨ ∃ m : Mode, i = m.caseRule) ∧
    (t.unitL.index ≠ s.unitL.index → (∃ b x, i = .seedl b x) ∨ i = .nextl ∨ ∃ m : Mode, i = m.caseRule) ∧
    (t.unitL.mode ≠ s.unitL.mode → (∃ b x, i = .seedl b x) ∨ i = .nextl ∨ ∃ m : Mode, i = m.caseRule) ∧
    (t.unitL.tempering ≠ s.unitL.tempering →
      (∃ x, i = .seedl t.unitL.tempering x) ∨ (i = .temper t.unitL.tempering ∧ s.unitL.started = false)) ∧
    (t.unitL.constructed ≠ s.unitL.constructed → (∃ b x, i = .seedl b x) ∧ t.unitL.constructed = true) ∧
    (t.unitL.started ≠ s.unitL.started →
      ((∃ b x, i = .seedl b x) ∧ t.unitL.started = false) ∨ (i = .nextl ∧ t.unitL.started = true))

/-- R230: the reset event puts both units into the "no instance" state, whatever they held; it is no command and has no
response; and it is the only way to clear `constructed`. That the step takes the reset alone from the host's inputs, and
that the later inputs and the earlier responses stay, is the model's choice (log 20). -/
def Obligations.ResetEventDiscardsBothInstances : Prop :=
  (∀ s t : State, step s = .next t →
    (s.unitS.constructed = true ∧ t.unitS.constructed = false) ∨
      (s.unitL.constructed = true ∧ t.unitL.constructed = false) →
    ∃ rest, s.inputs = .reset :: rest) ∧
  ∀ (s : State) rest, s.inputs = .reset :: rest →
    ∃ t, step s = .next t ∧
      t.unitS.constructed = false ∧ t.unitL.constructed = false ∧ t.unitL.started = false ∧
      t.unitS.index = 0 ∧ t.unitL.index = 0 ∧ t.unitL.mode = .case1 ∧ t.unitL.tempering = false ∧
      (∀ a, t.unitS.words.read a = none) ∧ (∀ a, t.unitL.words.read a = none) ∧
      t.inputs = rest ∧ t.responses = s.responses

/-- R35: the state after reset; `words` hold no value at any address, and every command that would use an instance
answers NotConstructed. -/
def Obligations.ResetLeavesNoInstance : Prop :=
  (∀ a, State.reset.unitS.words.read a = none) ∧ (∀ a, State.reset.unitL.words.read a = none) ∧
  State.reset.unitS.index = 0 ∧ State.reset.unitL.index = 0 ∧ State.reset.unitL.mode = .case1 ∧
  State.reset.unitL.tempering = false ∧ State.reset.unitS.constructed = false ∧
  State.reset.unitL.constructed = false ∧ State.reset.unitL.started = false ∧
  exec .nexts State.reset = .next (answered State.reset 3#4 0#64) ∧
  exec .nextl State.reset = .next (answered State.reset 3#4 0#64) ∧
  ∀ t, exec (.temper t) State.reset = .next (answered State.reset 3#4 0#64)

/-- R51: a word access answers inside the space and is IndexOutOfRange outside it, never wrapped, clamped or given a
value; a read changes nothing and a write only the word at its address. -/
def Obligations.WordAccessIsBounded : Prop :=
  ∀ (R : Nat) (m : Memory) (a : Int),
    (∀ v, memRead R m a = .ok v ↔ 0 ≤ a ∧ a < R ∧ m.read a.toNat = some v) ∧
    (memRead R m a = .error .indexOutOfRange ↔ ¬ (0 ≤ a ∧ a < R)) ∧
    (∀ v, (∃ m', memWrite R m a v = .ok m' ∧ m'.read a.toNat = some v ∧
        ∀ b : Nat, (b : Int) ≠ a → m'.read b = m.read b) ↔ 0 ≤ a ∧ a < R) ∧
    (∀ v, memWrite R m a v = .error .indexOutOfRange ↔ ¬ (0 ≤ a ∧ a < R))
end

