-- ==== Sys2Proof/Laws/State.lean ====
section
/-! SUPPORT. One lemma for each field of each named update of the state, true by unfolding. -/

namespace Sys2Proof.Machine

@[simp] theorem State.answer_unitS (s : State) (r : Response) : (s.answer r).unitS = s.unitS := rfl
@[simp] theorem State.answer_unitL (s : State) (r : Response) : (s.answer r).unitL = s.unitL := rfl
@[simp] theorem State.answer_inputs (s : State) (r : Response) : (s.answer r).inputs = s.inputs := rfl
@[simp] theorem State.answer_responses (s : State) (r : Response) :
    (s.answer r).responses = s.responses ++ [r] := rfl

@[simp] theorem State.consume_unitS (s : State) (k : Nat) : (s.consume k).unitS = s.unitS := rfl
@[simp] theorem State.consume_unitL (s : State) (k : Nat) : (s.consume k).unitL = s.unitL := rfl
@[simp] theorem State.consume_inputs (s : State) (k : Nat) : (s.consume k).inputs = s.inputs.drop k := rfl
@[simp] theorem State.consume_responses (s : State) (k : Nat) : (s.consume k).responses = s.responses := rfl

@[simp] theorem State.takeReset_unitS (s : State) : s.takeReset.unitS = UnitS.reset := rfl
@[simp] theorem State.takeReset_unitL (s : State) : s.takeReset.unitL = UnitL.reset := rfl
@[simp] theorem State.takeReset_inputs (s : State) : s.takeReset.inputs = s.inputs.drop 1 := rfl
@[simp] theorem State.takeReset_responses (s : State) : s.takeReset.responses = s.responses := rfl

@[simp] theorem State.issue_unitS (ws : List Word) (s : State) : (s.issue ws).unitS = s.unitS := rfl
@[simp] theorem State.issue_unitL (ws : List Word) (s : State) : (s.issue ws).unitL = s.unitL := rfl
@[simp] theorem State.issue_inputs (ws : List Word) (s : State) :
    (s.issue ws).inputs = ws.map .word ++ s.inputs := rfl
@[simp] theorem State.issue_responses (ws : List Word) (s : State) : (s.issue ws).responses = s.responses := rfl

@[simp] theorem UnitL.markStarted_words (u : UnitL) : u.markStarted.words = u.words := rfl
@[simp] theorem UnitL.markStarted_index (u : UnitL) : u.markStarted.index = u.index := rfl
@[simp] theorem UnitL.markStarted_mode (u : UnitL) : u.markStarted.mode = u.mode := rfl
@[simp] theorem UnitL.markStarted_tempering (u : UnitL) : u.markStarted.tempering = u.tempering := rfl
@[simp] theorem UnitL.markStarted_constructed (u : UnitL) : u.markStarted.constructed = u.constructed := rfl
@[simp] theorem UnitL.markStarted_started (u : UnitL) : u.markStarted.started = true := rfl

@[simp] theorem UnitL.setTempering_words (t : Bool) (u : UnitL) : (u.setTempering t).words = u.words := rfl
@[simp] theorem UnitL.setTempering_index (t : Bool) (u : UnitL) : (u.setTempering t).index = u.index := rfl
@[simp] theorem UnitL.setTempering_mode (t : Bool) (u : UnitL) : (u.setTempering t).mode = u.mode := rfl
@[simp] theorem UnitL.setTempering_tempering (t : Bool) (u : UnitL) : (u.setTempering t).tempering = t := rfl
@[simp] theorem UnitL.setTempering_constructed (t : Bool) (u : UnitL) :
    (u.setTempering t).constructed = u.constructed := rfl
@[simp] theorem UnitL.setTempering_started (t : Bool) (u : UnitL) : (u.setTempering t).started = u.started := rfl

@[simp] theorem UnitS.construct_words (c : Config.SmallParams) (ws : List Word) :
    (UnitS.construct c ws).words = Memory.ofSeed ws := rfl
@[simp] theorem UnitS.construct_index (c : Config.SmallParams) (ws : List Word) :
    (UnitS.construct c ws).index = c.index0 := rfl
@[simp] theorem UnitS.construct_constructed (c : Config.SmallParams) (ws : List Word) :
    (UnitS.construct c ws).constructed = true := rfl

@[simp] theorem UnitL.construct_words (t : Bool) (ws : List Word) :
    (UnitL.construct t ws).words = Memory.ofSeed ws := rfl
@[simp] theorem UnitL.construct_index (t : Bool) (ws : List Word) : (UnitL.construct t ws).index = 0 := rfl
@[simp] theorem UnitL.construct_mode (t : Bool) (ws : List Word) : (UnitL.construct t ws).mode = .case1 := rfl
@[simp] theorem UnitL.construct_tempering (t : Bool) (ws : List Word) :
    (UnitL.construct t ws).tempering = t := rfl
@[simp] theorem UnitL.construct_constructed (t : Bool) (ws : List Word) :
    (UnitL.construct t ws).constructed = true := rfl
@[simp] theorem UnitL.construct_started (t : Bool) (ws : List Word) : (UnitL.construct t ws).started = false := rfl

end Sys2Proof.Machine
end

