-- ==== Sys2Proof/Laws/Memory.lean ====
section
/-! SUPPORT. The laws of the word arrays: read after write, the canonical form, and what a seed fills. -/

namespace Sys2Proof.Machine

namespace Memory

@[simp] theorem read_nil (a : Nat) : read [] a = none := rfl

theorem read_write_same (m : Memory) (a : Nat) (v : Word) : (write m a v).read a = some v := by
  induction m with
  | nil => simp [write, read]
  | cons c m ih =>
    obtain ⟨k, w⟩ := c
    simp only [write]
    split
    · simp [read]
    · split
      · simp [read]
      · rename_i h
        simp [read, Ne.symm h, ih]

theorem read_write_other (m : Memory) {a b : Nat} (v : Word) (h : b ≠ a) :
    (write m a v).read b = m.read b := by
  induction m with
  | nil => simp [write, read, h.symm]
  | cons c m ih =>
    obtain ⟨k, w⟩ := c
    simp only [write]
    split
    · simp [read, h.symm]
    · split
      · rename_i hk
        subst hk
        simp [read, h.symm]
      · simp [read, ih]

/-- Reading after a write: the value written at that address, and what was there everywhere else. -/
theorem read_write (m : Memory) (a b : Nat) (v : Word) :
    (write m a v).read b = if b = a then some v else m.read b := by
  split
  · next h => rw [h, read_write_same]
  · next h => rw [read_write_other m v h]

theorem mem_addresses_write (m : Memory) (a : Nat) (v : Word) (x : Nat) (h : x ∈ (write m a v).addresses) :
    x = a ∨ x ∈ m.addresses := by
  induction m with
  | nil => simpa [write, addresses] using h
  | cons c m ih =>
    obtain ⟨k, w⟩ := c
    simp only [write] at h
    split at h
    · simpa [addresses] using h
    · split at h
      · next hk =>
        subst hk
        simp only [addresses, List.map_cons, List.mem_cons] at h ⊢
        tauto
      · simp only [addresses, List.map_cons, List.mem_cons] at h ih ⊢
        rcases h with h | h
        · exact .inr (.inl h)
        · rcases ih h with h | h
          · exact .inl h
          · exact .inr (.inr h)

/-- A write keeps the canonical form. -/
theorem write_wf (m : Memory) (a : Nat) (v : Word) (h : m.wf) : (write m a v).wf := by
  induction m with
  | nil => simp [write, wf, addresses]
  | cons c m ih =>
    obtain ⟨k, w⟩ := c
    have hk : ∀ x ∈ addresses m, k < x := (List.pairwise_cons.1 h).1
    have hm : wf m := (List.pairwise_cons.1 h).2
    simp only [write]
    split
    · next hak =>
      refine List.pairwise_cons.2 ⟨?_, h⟩
      intro x hx
      rcases List.mem_cons.1 hx with rfl | hx
      · exact hak
      · exact hak.trans (hk x hx)
    · split
      · next hak => subst hak; exact List.pairwise_cons.2 ⟨hk, hm⟩
      · next h1 h2 =>
        refine List.pairwise_cons.2 ⟨?_, ih hm⟩
        intro x hx
        rcases mem_addresses_write m a v x hx with rfl | hx
        · have := h1; have := h2; omega
        · exact hk x hx

/-- Writing where a value is held keeps the listed addresses. -/
theorem addresses_write_of_mem (m : Memory) (a : Nat) (v : Word) (hw : m.wf) (h : a ∈ m.addresses) :
    (write m a v).addresses = m.addresses := by
  induction m with
  | nil => simp [addresses] at h
  | cons c m ih =>
    obtain ⟨k, w⟩ := c
    have hk : ∀ x ∈ addresses m, k < x := (List.pairwise_cons.1 hw).1
    have hm : wf m := (List.pairwise_cons.1 hw).2
    have h' : a = k ∨ a ∈ addresses m := by simpa [addresses] using h
    simp only [write]
    split
    · next hak =>
      rcases h' with rfl | h'
      · omega
      · have := hk a h'; omega
    · split
      · next hak => subst hak; simp [addresses]
      · next h1 h2 =>
        have := ih hm (h'.resolve_left h2)
        simp only [addresses, List.map_cons] at this ⊢
        rw [this]

/-- A full array is in canonical form. -/
theorem wf_of_full {R : Nat} {m : Memory} (h : m.full R) : m.wf := by
  unfold wf
  rw [h]
  exact List.pairwise_lt_range

/-- Writing inside the space keeps an array full. -/
theorem full_write {R : Nat} {m : Memory} (h : m.full R) {a : Nat} (ha : a < R) (v : Word) :
    (write m a v).full R := by
  unfold full at h ⊢
  rw [addresses_write_of_mem m a v (wf_of_full h) (by rw [h]; exact List.mem_range.2 ha), h]

theorem read_isSome_iff (m : Memory) (a : Nat) : (m.read a).isSome ↔ a ∈ m.addresses := by
  induction m with
  | nil => simp [addresses]
  | cons c m ih =>
    obtain ⟨k, w⟩ := c
    simp only [read, addresses, List.map_cons, List.mem_cons] at ih ⊢
    split
    · next h => simp [h]
    · next h => rw [ih]; simp [Ne.symm h]

/-- A full array holds a value at every address of its space, and at no other. -/
theorem exists_read_of_full {R : Nat} {m : Memory} (h : m.full R) {a : Nat} (ha : a < R) :
    ∃ v, m.read a = some v := by
  have : (m.read a).isSome := (read_isSome_iff m a).2 (by rw [h]; exact List.mem_range.2 ha)
  exact Option.isSome_iff_exists.1 this

/-- Every full array holds some function of the address. -/
theorem exists_holds_of_full {R : Nat} {m : Memory} (h : m.full R) : ∃ w, m.Holds R w := by
  refine ⟨fun a => (m.read a).getD 0#32, fun a ha => ?_⟩
  obtain ⟨v, hv⟩ := exists_read_of_full h ha
  simp [hv]

theorem addresses_fill (k : Nat) (ws : List Word) : (fill k ws).addresses = List.range' k ws.length := by
  induction ws generalizing k with
  | nil => simp [fill, addresses]
  | cons w ws ih =>
    have := ih (k + 1)
    simp only [addresses] at this
    simp [fill, addresses, List.range'_succ, this]

theorem read_fill (k : Nat) (ws : List Word) (a : Nat) :
    (fill k ws).read a = if a < k then none else ws[a - k]? := by
  induction ws generalizing k with
  | nil => simp [fill]
  | cons w ws ih =>
    simp only [fill, read]
    split
    · next h => subst h; simp
    · next h =>
      rw [ih]
      by_cases h1 : a < k
      · rw [if_pos (by omega), if_pos h1]
      · obtain ⟨d, rfl⟩ : ∃ d, a = k + 1 + d := ⟨a - (k + 1), by omega⟩
        rw [if_neg (by omega), if_neg h1, show k + 1 + d - k = d + 1 by omega, show k + 1 + d - (k + 1) = d by omega]
        simp

/-- A seed of `R` words fills a space of `R` words. -/
theorem full_ofSeed (ws : List Word) : (ofSeed ws).full ws.length := by
  unfold full ofSeed
  rw [addresses_fill, List.range_eq_range']

/-- Address `k` holds seed word `k` (R180, R181). -/
theorem read_ofSeed (ws : List Word) (k : Nat) : (ofSeed ws).read k = ws[k]? := by
  simp [ofSeed, read_fill]

theorem allZero_write {m : Memory} (h : m.allZero) (a : Nat) : (write m a 0#32).allZero := by
  induction m with
  | nil => simp [write, allZero]
  | cons c m ih =>
    obtain ⟨k, w⟩ := c
    have hc : w = 0#32 := h (k, w) (by simp)
    have hm : allZero m := fun x hx => h x (by simp [hx])
    simp only [write]
    split
    · intro x hx
      rcases List.mem_cons.1 hx with rfl | hx
      · rfl
      · exact h x hx
    · split
      · intro x hx
        rcases List.mem_cons.1 hx with rfl | hx
        · rfl
        · exact hm x hx
      · intro x hx
        rcases List.mem_cons.1 hx with rfl | hx
        · exact hc
        · exact ih hm x hx

theorem read_of_allZero {m : Memory} (h : m.allZero) {a : Nat} {v : Word} (hv : m.read a = some v) : v = 0#32 := by
  induction m with
  | nil => simp at hv
  | cons c m ih =>
    obtain ⟨k, w⟩ := c
    simp only [read] at hv
    split at hv
    · simp only [Option.some.injEq] at hv
      rw [← hv]; exact h (k, w) (by simp)
    · exact ih (fun x hx => h x (by simp [hx])) hv

/-- Two arrays in canonical form that read alike everywhere are the same data. -/
theorem ext_read {m m' : Memory} (h : m.wf) (h' : m'.wf) (hr : ∀ a, m.read a = m'.read a) : m = m' := by
  have least : ∀ {k w} {m : Memory}, wf ((k, w) :: m) → ∀ a, a ≤ k → a ≠ k → read ((k, w) :: m) a = none := by
    intro k w m hm a hak hne
    by_contra hc
    have h1 := (read_isSome_iff _ a).1 (Option.isSome_iff_ne_none.2 hc)
    have h2 : a = k ∨ a ∈ addresses m := by simpa [addresses] using h1
    rcases h2 with h2 | h2
    · exact hne h2
    · have := (List.pairwise_cons.1 hm).1 a h2; omega
  induction m generalizing m' with
  | nil =>
    cases m' with
    | nil => rfl
    | cons c m' =>
      obtain ⟨k, w⟩ := c
      have := hr k
      simp [read] at this
  | cons c m ih =>
    obtain ⟨k, w⟩ := c
    cases m' with
    | nil =>
      have := hr k
      simp [read] at this
    | cons c' m' =>
      obtain ⟨k', w'⟩ := c'
      have hkk : k = k' := by
        by_contra hne
        rcases Nat.lt_or_ge k k' with hlt | hge
        · have h1 := hr k
          rw [least h' k hlt.le hne] at h1
          simp [read] at h1
        · have h1 := hr k'
          rw [least h k' hge (Ne.symm hne)] at h1
          simp [read] at h1
      subst hkk
      have hw : w = w' := by
        have := hr k
        simpa [read] using this
      subst hw
      congr 1
      refine ih (List.pairwise_cons.1 h).2 (List.pairwise_cons.1 h').2 ?_
      intro a
      by_cases hak : k = a
      · subst hak
        have e1 : read m k = none := by
          by_contra hc
          have := (read_isSome_iff m k).1 (Option.isSome_iff_ne_none.2 hc)
          have := (List.pairwise_cons.1 h).1 k this
          omega
        have e2 : read m' k = none := by
          by_contra hc
          have := (read_isSome_iff m' k).1 (Option.isSome_iff_ne_none.2 hc)
          have := (List.pairwise_cons.1 h').1 k this
          omega
        rw [e1, e2]
      · have := hr a
        simpa [read, hak] using this

end Memory

/-! The bounded accesses of R51. -/

theorem memRead_of_mem {R : Nat} {m : Memory} {a : Nat} {v : Word} (ha : a < R) (hv : m.read a = some v) :
    memRead R m (a : Int) = .ok v := by
  have : (0 : Int) ≤ a ∧ (a : Int) < R := ⟨by omega, by exact_mod_cast ha⟩
  simp only [memRead, if_pos this, Int.toNat_natCast, hv]

theorem memRead_outOfRange {R : Nat} (m : Memory) {a : Int} (h : ¬ (0 ≤ a ∧ a < R)) :
    memRead R m a = .error .indexOutOfRange := by
  simp only [memRead, if_neg h]

theorem memWrite_of_lt {R : Nat} (m : Memory) {a : Nat} (v : Word) (ha : a < R) :
    memWrite R m (a : Int) v = .ok (m.write a v) := by
  have : (0 : Int) ≤ a ∧ (a : Int) < R := ⟨by omega, by exact_mod_cast ha⟩
  simp only [memWrite, if_pos this, Int.toNat_natCast]

/-- All a read can answer (R51). -/
theorem memRead_eq_ok {R : Nat} {m : Memory} {a : Int} {v : Word} (h : memRead R m a = .ok v) :
    ∃ n : Nat, a = n ∧ n < R ∧ m.read n = some v := by
  unfold memRead at h
  split at h
  · next hr =>
    refine ⟨a.toNat, by omega, by omega, ?_⟩
    split at h
    · next w hw => cases h; exact hw
    · cases h
  · cases h

/-- All a write can answer (R51). -/
theorem memWrite_eq_ok {R : Nat} {m m' : Memory} {a : Int} {v : Word} (h : memWrite R m a v = .ok m') :
    ∃ n : Nat, a = n ∧ n < R ∧ m' = m.write n v := by
  unfold memWrite at h
  split at h
  · next hr =>
    cases h
    exact ⟨a.toNat, by omega, by omega, rfl⟩
  · cases h

/-- A write is refused exactly outside the space (R51). -/
theorem memWrite_eq_error {R : Nat} {m : Memory} {a : Int} {v : Word} {e : AccessError}
    (h : memWrite R m a v = .error e) : e = .indexOutOfRange ∧ ¬ (0 ≤ a ∧ a < R) := by
  unfold memWrite at h
  split at h
  · cases h
  · next hr => cases h; exact ⟨rfl, hr⟩

end Sys2Proof.Machine
end

