-- ==== Sys2Proof/Laws/Control.lean ====
section
/-! SUPPORT. The control state of unit L and the address forms: the regions as intervals, the modular reading of the
address forms on their regions, and where a form leaves the array. -/

namespace Sys2Proof.Machine

/-- The address forms of unit S with their constants written out (R110). -/
theorem smallAddrs_eq (c : Config.SmallParams) (i : Nat) :
    smallAddrs c i = ⟨i % 32, (i + 31) % 32, (i + c.m1) % 32, (i + c.m2) % 32, (i + c.m3) % 32⟩ := rfl

/-- The table of R32, as intervals. -/
theorem regionOf_eq_iff (i : Nat) (m : Mode) :
    regionOf i = m ↔
      match m with
      | .case1 => i = 0
      | .case2 => i = 1
      | .case6 => 2 ≤ i ∧ i ≤ 174
      | .case4 => 175 ≤ i ∧ i ≤ 444
      | .case5 => 445 ≤ i ∧ i ≤ 553
      | .case3 => 554 ≤ i := by
  unfold regionOf
  cases m <;> simp only [Config.lC1, Config.lC2, Config.lC3] <;> split_ifs <;> simp_all <;> omega

/-- On its region, each spelled address is the modular one (R146). -/
theorem largeAddrs_modular {i : Nat} (hi : i < Config.lR) :
    largeAddrs (regionOf i) (i : Int) =
      ⟨(i : Nat), ((i + 70) % 624 : Nat), ((i + 179) % 624 : Nat), ((i + 449) % 624 : Nat),
        ((i + 623) % 624 : Nat), ((i + 622) % 624 : Nat)⟩ := by
  have key := (regionOf_eq_iff i (regionOf i)).1 rfl
  generalize regionOf i = m at key ⊢
  cases m <;> simp only at key <;> simp only [largeAddrs, LargeAddrs.mk.injEq, Config.lR, Config.lM1, Config.lM2, Config.lM3, Config.lC1, Config.lC2, Config.lC3] at hi ⊢ <;>
    refine ⟨trivial, ?_, ?_, ?_, ?_, ?_⟩ <;> omega

/-- All six addresses of a form lie in the array. -/
abbrev LargeAddrs.InRange (a : LargeAddrs) : Prop :=
  (0 ≤ a.v0 ∧ a.v0 < Config.lR) ∧ (0 ≤ a.vM1 ∧ a.vM1 < Config.lR) ∧ (0 ≤ a.vM2 ∧ a.vM2 < Config.lR) ∧
    (0 ≤ a.vM3 ∧ a.vM3 < Config.lR) ∧ (0 ≤ a.vRm1 ∧ a.vRm1 < Config.lR) ∧ (0 ≤ a.vRm2 ∧ a.vRm2 < Config.lR)

/-- The next index of a mode on its region is the address of the boundary word (R136). -/
theorem nextIndex_modular {i : Nat} (hi : i < Config.lR) : nextIndex (regionOf i) i = (i + 623) % 624 := by
  have key := (regionOf_eq_iff i (regionOf i)).1 rfl
  generalize regionOf i = m at key ⊢
  cases m <;> simp only at key <;> simp only [nextIndex, Config.lR] at hi ⊢ <;> omega

/-- The transition table keeps the mode the region of the index (R32). -/
theorem nextMode_region {i : Nat} (hi : i < Config.lR) :
    nextMode (regionOf i) (nextIndex (regionOf i) i) = regionOf (nextIndex (regionOf i) i) := by
  have key := (regionOf_eq_iff i (regionOf i)).1 rfl
  have hlt : i < 624 := hi
  generalize hm : regionOf i = m at key ⊢
  generalize hj : nextIndex m i = j
  symm
  rw [regionOf_eq_iff]
  have hj' := hj.symm
  cases m <;> simp only [nextIndex] at hj' <;> simp only [nextMode, Config.lC1, Config.lC2, Config.lC3] <;>
    (try split_ifs) <;> simp only at key ⊢ <;> omega

end Sys2Proof.Machine
end

