-- ==== Sys2Proof/Laws/Encoding.lean ====
section
/-! SUPPORT. The fields of a command word, and what decoding makes of them. -/

namespace Sys2Proof

theorem getLsbD_commandWord (op : BitVec 4) (t p : Bool) (n : BitVec 16) (i : Nat) :
    (commandWord op t p n).getLsbD i =
      if i < 16 then n.getLsbD i else if i < 26 then false else if i = 26 then p else if i = 27 then t
      else op.getLsbD (i - 28) := by
  unfold commandWord
  show BitVec.getLsbD (op ++ BitVec.ofBool t ++ BitVec.ofBool p ++ 0#10 ++ n : BitVec (4 + 1 + 1 + 10 + 16)) i = _
  rw [BitVec.getLsbD_append, BitVec.getLsbD_append, BitVec.getLsbD_append, BitVec.getLsbD_append]
  split_ifs <;> (try subst i) <;> simp_all <;> first | omega | rfl

@[simp] theorem opField_commandWord (op : BitVec 4) (t p : Bool) (n : BitVec 16) :
    opField (commandWord op t p n) = op := by
  apply BitVec.eq_of_getLsbD_eq
  intro i hi
  rw [opField, BitVec.getLsbD_extractLsb', getLsbD_commandWord, if_neg (by omega), if_neg (by omega),
    if_neg (by omega), if_neg (by omega), Nat.add_sub_cancel_left, decide_eq_true hi, Bool.true_and]

@[simp] theorem tField_commandWord (op : BitVec 4) (t p : Bool) (n : BitVec 16) :
    tField (commandWord op t p n) = t := by
  rw [tField, getLsbD_commandWord]
  rfl

@[simp] theorem pField_commandWord (op : BitVec 4) (t p : Bool) (n : BitVec 16) :
    pField (commandWord op t p n) = p := by
  rw [pField, getLsbD_commandWord]
  rfl

@[simp] theorem zeroField_commandWord (op : BitVec 4) (t p : Bool) (n : BitVec 16) :
    zeroField (commandWord op t p n) = 0#10 := by
  apply BitVec.eq_of_getLsbD_eq
  intro i hi
  rw [zeroField, BitVec.getLsbD_extractLsb', getLsbD_commandWord, if_neg (by omega), if_pos (by omega)]
  simp

@[simp] theorem nField_commandWord (op : BitVec 4) (t p : Bool) (n : BitVec 16) :
    nField (commandWord op t p n) = n := by
  apply BitVec.eq_of_getLsbD_eq
  intro i hi
  rw [nField, BitVec.getLsbD_extractLsb', getLsbD_commandWord, if_pos (by omega), Nat.zero_add, decide_eq_true hi,
    Bool.true_and]

/-- A word whose bits 25:16 are zero is the command word of its fields (R71). -/
theorem commandWord_fields {c : Word} (hz : zeroField c = 0#10) :
    commandWord (opField c) (tField c) (pField c) (nField c) = c := by
  have hz' : ∀ j, j < 10 → c.getLsbD (16 + j) = false := fun j hj => by
    have := congrArg (fun x => x.getLsbD j) hz
    simpa [zeroField, hj] using this
  apply BitVec.eq_of_getLsbD_eq
  intro i hi
  rw [getLsbD_commandWord]
  split_ifs with h1 h2 h3 h4
  · simp only [nField, BitVec.getLsbD_extractLsb', h1, decide_true, Bool.true_and, Nat.zero_add]
  · have := hz' (i - 16) (by omega)
    rw [Nat.add_sub_cancel' (by omega)] at this
    exact this.symm
  · subst i; rfl
  · subst i; rfl
  · have h5 : i - 28 < 4 := by omega
    simp only [opField, BitVec.getLsbD_extractLsb', h5, decide_true, Bool.true_and, Nat.add_sub_cancel' (by omega : 28 ≤ i)]

/-- Decoding of a command word, from its fields (R81). -/
theorem decodeHeader_commandWord (op : BitVec 4) (t p : Bool) (n : BitVec 16) :
    decodeHeader (commandWord op t p n) =
      match op.toNat with
      | 1 => if t then none else (seedCount p n).map .seeds
      | 2 => (seedCount p n).map (.seedl t)
      | 3 => if p || n != 0#16 then none else some (.temper t)
      | 4 => if t || p || n != 0#16 then none else some .nexts
      | 5 => if t || p || n != 0#16 then none else some .nextl
      | _ => none := by
  rw [decodeHeader, opField_commandWord, tField_commandWord, pField_commandWord, zeroField_commandWord,
    nField_commandWord]
  exact if_neg (by simp)

/-- The one command word that a header stands for (R72), for a count that fits the field `n`. -/
def Header.word : Header → Word
  | .seeds none => commandWord 1#4 false false 0#16
  | .seeds (some k) => commandWord 1#4 false true (BitVec.ofNat 16 k)
  | .seedl t none => commandWord 2#4 t false 0#16
  | .seedl t (some k) => commandWord 2#4 t true (BitVec.ofNat 16 k)
  | .temper t => commandWord 3#4 t false 0#16
  | .nexts => commandWord 4#4 false false 0#16
  | .nextl => commandWord 5#4 false false 0#16

/-- A legal command word is the word of its header, whose count fits the field `n`. -/
theorem eq_word_of_decodeHeader {c : Word} {h : Header} (hd : decodeHeader c = some h) :
    c = h.word ∧ h.payloadLength < 65536 := by
  have hz : zeroField c = 0#10 := by
    by_contra hne
    unfold decodeHeader at hd
    rw [if_pos hne] at hd
    cases hd
  have hc := commandWord_fields hz
  generalize opField c = op at hc
  generalize tField c = t at hc
  generalize pField c = p at hc
  generalize nField c = n at hc
  clear hz
  subst hc
  rw [decodeHeader_commandWord] at hd
  have hop : op = BitVec.ofNat 4 op.toNat := by simp
  have hlt : op.toNat < 16 := op.isLt
  have hn16 : n.toNat < 65536 := n.isLt
  generalize op.toNat = o at *
  subst hop
  by_cases hn : n = 0#16
  · subst hn
    interval_cases o <;> cases t <;> cases p <;> simp [seedCount] at hd <;> subst hd <;> exact ⟨rfl, by decide⟩
  · interval_cases o <;> cases t <;> cases p <;> simp [seedCount, hn] at hd <;> subst hd <;>
      simp [Header.word, Header.payloadLength, hn16]

/-- The word of a header decodes to it. -/
theorem decodeHeader_word {h : Header} (hl : h.payloadLength < 65536) : decodeHeader h.word = some h := by
  cases h with
  | seeds count => cases count with
    | none => decide
    | some k => simp [Header.word, decodeHeader_commandWord, seedCount, Nat.mod_eq_of_lt (show k < 65536 from hl)]
  | seedl t count => cases count with
    | none => cases t <;> decide
    | some k => simp [Header.word, decodeHeader_commandWord, seedCount, Nat.mod_eq_of_lt (show k < 65536 from hl)]
  | temper t => cases t <;> decide
  | nexts => decide
  | nextl => decide

end Sys2Proof
end

