-- ==== Sys2Proof/Laws/Exec.lean ====
section
/-! SUPPORT. What each shared operation and each meaning can answer: the lemmas that later proofs cite instead of
unfolding. -/

namespace Sys2Proof.Machine

/-! Answers. -/

@[simp] theorem respondOk_eq (b : BitVec 64) (s : State) : respondOk b s = .next (s.answer ⟨0#4, b⟩) := rfl

@[simp] theorem raise_eq (e : Status) (s : State) : raise e s = .next (s.answer ⟨e.code, 0#64⟩) := rfl

/-- All an unanswered word access leads to. -/
theorem raiseAccess_cases (u : UnitName) (e : AccessError) (s : State) :
    (e = .indexOutOfRange ∧ raiseAccess u e s = .next (s.answer ⟨6#4, 0#64⟩)) ∨
    (∃ a, e = .noValue a ∧ raiseAccess u e s = .fault (.wordHoldsNoValue u a)) := by
  cases e with
  | indexOutOfRange => exact .inl ⟨rfl, rfl⟩
  | noValue a => exact .inr ⟨a, rfl, rfl⟩

/-- All the seed check can answer (R180, R181, R208). -/
theorem checkSeed_cases (R : Nat) (seed : Option (List Word)) :
    (seed = none ∧ checkSeed R seed = .error .nullSeed) ∨
    (∃ ws, seed = some ws ∧ ws.length ≠ R ∧ checkSeed R seed = .error .invalidSeedLength) ∨
    (∃ ws, seed = some ws ∧ ws.length = R ∧ checkSeed R seed = .ok ws) := by
  cases seed with
  | none => exact .inl ⟨rfl, rfl⟩
  | some ws =>
    by_cases h : ws.length = R
    · exact .inr (.inr ⟨ws, rfl, h, by simp [checkSeed, h]⟩)
    · exact .inr (.inl ⟨ws, rfl, h, by simp [checkSeed, h]⟩)

/-! The step of unit S. -/

/-- The words a step of unit S reads, where the array holds `w` (R110). -/
def smallTapsOf (c : Config.SmallParams) (w : Nat → Word) (i : Nat) : SmallTaps :=
  { w0 := w (i % 32), wR := w ((i + 31) % 32), w1 := w ((i + c.m1) % 32), w2 := w ((i + c.m2) % 32),
    w3 := w ((i + c.m3) % 32) }

theorem readSmallTaps_of_holds (c : Config.SmallParams) {m : Memory} {w : Nat → Word} (h : m.Holds Config.sR w)
    (i : Nat) : readSmallTaps m (smallAddrs c i) = .ok (smallTapsOf c w i) := by
  have lt : ∀ x : Nat, x % 32 < Config.sR := fun x => Nat.mod_lt _ (by decide)
  have rd : ∀ x : Nat, memRead Config.sR m ((x % 32 : Nat) : Int) = .ok (w (x % 32)) :=
    fun x => memRead_of_mem (lt x) (h _ (lt x))
  simp only [readSmallTaps, smallAddrs, Config.sR, Config.sRM1] at rd ⊢
  simp only [rd]
  rfl

/-- The unit and output word after a step of unit S that read the words `x` (R112). -/
def UnitS.after (c : Config.SmallParams) (u : UnitS) (x : SmallTaps) : UnitS × Word :=
  let n := smallNewWords c x
  ({ u with words := (u.words.write (u.index % 32) n.newV1).write ((u.index + 31) % 32) n.newV0,
            index := (u.index + 31) % 32 }, n.newV0)

theorem UnitS.advance_of_taps (c : Config.SmallParams) {u : UnitS} {x : SmallTaps}
    (h : readSmallTaps u.words (smallAddrs c u.index) = .ok x) : u.advance c = .ok (u.after c x) := by
  have lt : ∀ x : Nat, x % 32 < Config.sR := fun x => Nat.mod_lt _ (by decide)
  have wr : ∀ (m : Memory) (x : Nat) (v : Word), memWrite Config.sR m ((x % 32 : Nat) : Int) v = .ok (m.write (x % 32) v) :=
    fun m x v => memWrite_of_lt m v (lt x)
  simp only [UnitS.advance, h, bind, Except.bind]
  simp only [smallAddrs, wr, Config.sRM1]
  rfl

/-- A step of unit S on an array that holds `w` (R112). -/
theorem UnitS.advance_of_holds (c : Config.SmallParams) {u : UnitS} {w : Nat → Word}
    (h : u.words.Holds Config.sR w) : u.advance c = .ok (u.after c (smallTapsOf c w u.index)) :=
  UnitS.advance_of_taps c (readSmallTaps_of_holds c h u.index)

/-- All a step of unit S can answer. -/
theorem UnitS.advance_cases (c : Config.SmallParams) (u : UnitS) :
    (∃ x, readSmallTaps u.words (smallAddrs c u.index) = .ok x ∧ u.advance c = .ok (u.after c x)) ∨
    (∃ e, readSmallTaps u.words (smallAddrs c u.index) = .error e ∧ u.advance c = .error e) := by
  cases h : readSmallTaps u.words (smallAddrs c u.index) with
  | ok x => exact .inl ⟨x, rfl, UnitS.advance_of_taps c h⟩
  | error e =>
    refine .inr ⟨e, rfl, ?_⟩
    simp only [UnitS.advance, h, bind, Except.bind]

/-! The step of unit L. -/

/-- The words a step of unit L reads at the given addresses, where the array holds `w`. -/
def largeTapsAt (w : Nat → Word) (a0 a1 a2 a3 aR1 aR2 : Nat) : LargeTaps :=
  { v0 := w a0, vM1 := w a1, vM2 := w a2, vM3 := w a3, vRm1 := w aR1, vRm2 := w aR2 }

theorem readLargeTaps_of_holds {m : Memory} {w : Nat → Word} (h : m.Holds Config.lR w)
    {a0 a1 a2 a3 aR1 aR2 : Nat} (h0 : a0 < 624) (h1 : a1 < 624) (h2 : a2 < 624) (h3 : a3 < 624) (hR1 : aR1 < 624)
    (hR2 : aR2 < 624) :
    readLargeTaps m ⟨a0, a1, a2, a3, aR1, aR2⟩ = .ok (largeTapsAt w a0 a1 a2 a3 aR1 aR2) := by
  simp only [readLargeTaps, memRead_of_mem h0 (h _ h0), memRead_of_mem h1 (h _ h1), memRead_of_mem h2 (h _ h2),
    memRead_of_mem h3 (h _ h3), memRead_of_mem hR1 (h _ hR1), memRead_of_mem hR2 (h _ hR2)]
  rfl

/-- Reading answers IndexOutOfRange where the array is full and some address leaves it (R51). -/
theorem readLargeTaps_outOfRange {m : Memory} {w : Nat → Word} (h : m.Holds Config.lR w) {a : LargeAddrs}
    (ha : ¬ a.InRange) : readLargeTaps m a = .error .indexOutOfRange := by
  have rd : ∀ x : Int, (∃ n : Nat, x = n ∧ n < Config.lR ∧ memRead Config.lR m x = .ok (w n)) ∨
      (¬ (0 ≤ x ∧ x < Config.lR) ∧ memRead Config.lR m x = .error .indexOutOfRange) := by
    intro x
    by_cases hx : 0 ≤ x ∧ x < Config.lR
    · left
      obtain ⟨n, rfl⟩ := Int.eq_ofNat_of_zero_le hx.1
      have hn : n < Config.lR := by have := hx.2; omega
      exact ⟨n, rfl, hn, memRead_of_mem hn (h _ hn)⟩
    · exact .inr ⟨hx, memRead_outOfRange m hx⟩
  unfold LargeAddrs.InRange at ha
  unfold readLargeTaps
  rcases rd a.v0 with ⟨n0, e0, l0, r0⟩ | ⟨_, r0⟩
  swap
  · simp [r0, bind, Except.bind]
  rcases rd a.vM1 with ⟨n1, e1, l1, r1⟩ | ⟨_, r1⟩
  swap
  · simp [r0, r1, bind, Except.bind]
  rcases rd a.vM2 with ⟨n2, e2, l2, r2⟩ | ⟨_, r2⟩
  swap
  · simp [r0, r1, r2, bind, Except.bind]
  rcases rd a.vM3 with ⟨n3, e3, l3, r3⟩ | ⟨_, r3⟩
  swap
  · simp [r0, r1, r2, r3, bind, Except.bind]
  rcases rd a.vRm1 with ⟨n4, e4, l4, r4⟩ | ⟨_, r4⟩
  swap
  · simp [r0, r1, r2, r3, r4, bind, Except.bind]
  rcases rd a.vRm2 with ⟨n5, e5, l5, r5⟩ | ⟨_, r5⟩
  swap
  · simp [r0, r1, r2, r3, r4, r5, bind, Except.bind]
  exfalso
  apply ha
  simp only [e0, e1, e2, e3, e4, e5]
  omega

/-- What a read of the six words says of the addresses. -/
theorem readLargeTaps_eq_ok {m : Memory} {a : LargeAddrs} {x : LargeTaps} (h : readLargeTaps m a = .ok x) :
    a.InRange := by
  unfold readLargeTaps at h
  simp only [bind, Except.bind, pure, Except.pure] at h
  repeat' split at h
  all_goals cases h
  rename_i e0 _ _ e1 _ _ e2 _ _ e3 _ _ e4 _ _ e5
  obtain ⟨_, q0, l0, _⟩ := memRead_eq_ok e0
  obtain ⟨_, q1, l1, _⟩ := memRead_eq_ok e1
  obtain ⟨_, q2, l2, _⟩ := memRead_eq_ok e2
  obtain ⟨_, q3, l3, _⟩ := memRead_eq_ok e3
  obtain ⟨_, q4, l4, _⟩ := memRead_eq_ok e4
  obtain ⟨_, q5, l5, _⟩ := memRead_eq_ok e5
  unfold LargeAddrs.InRange
  simp only [q0, q1, q2, q3, q4, q5]
  omega

/-- The unit and raw output word after a case rule that read the words `x` (R136, R143). -/
def UnitL.after (c : Config.LargeParams) (m : Mode) (u : UnitL) (x : LargeTaps) : UnitL × Word :=
  let n := largeNewWords c x
  let a := largeAddrs m u.index
  ({ u with words := (u.words.write a.v0.toNat n.newV1).write a.vRm1.toNat n.newV0,
            index := nextIndex m u.index, mode := nextMode m (nextIndex m u.index) }, n.newV0)

theorem UnitL.advance_of_taps (c : Config.LargeParams) {m : Mode} {u : UnitL} {x : LargeTaps}
    (h : readLargeTaps u.words (largeAddrs m u.index) = .ok x) : u.advance c m = .ok (u.after c m x) := by
  have hr := readLargeTaps_eq_ok h
  simp only [UnitL.advance, h, bind, Except.bind, memWrite, if_pos hr.1, if_pos hr.2.2.2.2.1]
  rfl

/-- All a case rule can answer. -/
theorem UnitL.advance_cases (c : Config.LargeParams) (m : Mode) (u : UnitL) :
    (∃ x, readLargeTaps u.words (largeAddrs m u.index) = .ok x ∧ u.advance c m = .ok (u.after c m x)) ∨
    (∃ e, readLargeTaps u.words (largeAddrs m u.index) = .error e ∧ u.advance c m = .error e) := by
  cases h : readLargeTaps u.words (largeAddrs m u.index) with
  | ok x => exact .inl ⟨x, rfl, UnitL.advance_of_taps c h⟩
  | error e =>
    refine .inr ⟨e, rfl, ?_⟩
    simp only [UnitL.advance, h, bind, Except.bind]

/-- The words the step of unit L at index `i` reads, where the array holds `w`, in modular form (R146). -/
def largeTapsOf (w : Nat → Word) (i : Nat) : LargeTaps :=
  largeTapsAt w i ((i + 70) % 624) ((i + 179) % 624) ((i + 449) % 624) ((i + 623) % 624) ((i + 622) % 624)

theorem UnitL.advance_of_holds (c : Config.LargeParams) {u : UnitL} {w : Nat → Word} (hi : u.index < Config.lR)
    (h : u.words.Holds Config.lR w) :
    u.advance c (regionOf u.index) = .ok (u.after c (regionOf u.index) (largeTapsOf w u.index)) := by
  apply UnitL.advance_of_taps
  rw [largeAddrs_modular hi]
  have lt : ∀ x : Nat, x % 624 < 624 := fun x => Nat.mod_lt _ (by decide)
  exact readLargeTaps_of_holds h hi (lt _) (lt _) (lt _) (lt _) (lt _)

/-- The unit after the case rule of the region, in modular form (R146). -/
theorem UnitL.after_modular (c : Config.LargeParams) {u : UnitL} (hi : u.index < Config.lR) (x : LargeTaps) :
    u.after c (regionOf u.index) x =
      ({ u with words := (u.words.write u.index (largeNewWords c x).newV1).write ((u.index + 623) % 624)
                  (largeNewWords c x).newV0,
                index := (u.index + 623) % 624, mode := regionOf ((u.index + 623) % 624) },
        (largeNewWords c x).newV0) := by
  simp only [UnitL.after, largeAddrs_modular hi, nextIndex_modular hi, Int.toNat_natCast]
  rw [← nextIndex_modular hi, nextMode_region hi]

/-! What each instruction can answer. -/

/-- All SEEDS can answer (R180). -/
theorem execSeeds_cases (seed : Option (List Word)) (s : State) :
    (seed = none ∧ execSeeds seed s = .next (s.answer ⟨1#4, 0#64⟩)) ∨
    (∃ ws, seed = some ws ∧ ws.length ≠ 32 ∧ execSeeds seed s = .next (s.answer ⟨2#4, 0#64⟩)) ∨
    (∃ ws, seed = some ws ∧ ws.length = 32 ∧
      execSeeds seed s = .next (State.answer { s with unitS := UnitS.construct Config.small ws } ⟨0#4, 0#64⟩)) := by
  rcases checkSeed_cases Config.sR seed with ⟨h, e⟩ | ⟨ws, h, hl, e⟩ | ⟨ws, h, hl, e⟩
  · exact .inl ⟨h, by simp only [execSeeds, e]; rfl⟩
  · exact .inr (.inl ⟨ws, h, hl, by simp only [execSeeds, e]; rfl⟩)
  · exact .inr (.inr ⟨ws, h, hl, by simp only [execSeeds, e]; rfl⟩)

/-- All SEEDL can answer (R181). -/
theorem execSeedl_cases (t : Bool) (seed : Option (List Word)) (s : State) :
    (seed = none ∧ execSeedl t seed s = .next (s.answer ⟨1#4, 0#64⟩)) ∨
    (∃ ws, seed = some ws ∧ ws.length ≠ 624 ∧ execSeedl t seed s = .next (s.answer ⟨2#4, 0#64⟩)) ∨
    (∃ ws, seed = some ws ∧ ws.length = 624 ∧
      execSeedl t seed s = .next (State.answer { s with unitL := UnitL.construct t ws } ⟨0#4, 0#64⟩)) := by
  rcases checkSeed_cases Config.lR seed with ⟨h, e⟩ | ⟨ws, h, hl, e⟩ | ⟨ws, h, hl, e⟩
  · exact .inl ⟨h, by simp only [execSeedl, e]; rfl⟩
  · exact .inr (.inl ⟨ws, h, hl, by simp only [execSeedl, e]; rfl⟩)
  · exact .inr (.inr ⟨ws, h, hl, by simp only [execSeedl, e]; rfl⟩)

/-- All TEMPER can answer (R182). -/
theorem execTemper_cases (t : Bool) (s : State) :
    (s.unitL.constructed = false ∧ execTemper t s = .next (s.answer ⟨3#4, 0#64⟩)) ∨
    (s.unitL.constructed = true ∧ s.unitL.started = true ∧ execTemper t s = .next (s.answer ⟨4#4, 0#64⟩)) ∨
    (s.unitL.constructed = true ∧ s.unitL.started = false ∧
      execTemper t s = .next (State.answer { s with unitL := s.unitL.setTempering t } ⟨0#4, 0#64⟩)) := by
  unfold execTemper
  cases h : s.unitL.constructed <;> cases h' : s.unitL.started <;> simp [Status.code]

/-- All NEXTS can answer (R112). -/
theorem execNexts_cases (s : State) :
    (s.unitS.constructed = false ∧ execNexts s = .next (s.answer ⟨3#4, 0#64⟩)) ∨
    (s.unitS.constructed = true ∧ ∃ x, readSmallTaps s.unitS.words (smallAddrs Config.small s.unitS.index) = .ok x ∧
      execNexts s = .next (State.answer { s with unitS := (s.unitS.after Config.small x).1 }
        ⟨0#4, sampleBits (smallNewWords Config.small x).newV0⟩)) ∨
    (s.unitS.constructed = true ∧
      ∃ e, readSmallTaps s.unitS.words (smallAddrs Config.small s.unitS.index) = .error e ∧
        execNexts s = raiseAccess .S e s) := by
  cases h : s.unitS.constructed with
  | false => exact .inl ⟨rfl, by simp [execNexts, h, Status.code]⟩
  | true =>
    rcases UnitS.advance_cases Config.small s.unitS with ⟨x, hx, e⟩ | ⟨e, hx, he⟩
    · exact .inr (.inl ⟨rfl, x, hx, by simp [execNexts, h, e, UnitS.after]⟩)
    · exact .inr (.inr ⟨rfl, e, hx, by simp [execNexts, h, he]⟩)

/-- All a case rule can answer (R137 to R142). -/
theorem runCase_cases (m : Mode) (s : State) :
    (s.unitL.constructed = false ∧ runCase m s = .next (s.answer ⟨3#4, 0#64⟩)) ∨
    (s.unitL.constructed = true ∧ ∃ x, readLargeTaps s.unitL.words (largeAddrs m s.unitL.index) = .ok x ∧
      runCase m s = .next { s with unitL := (s.unitL.after Config.large m x).1 }) ∨
    (s.unitL.constructed = true ∧ ∃ e, readLargeTaps s.unitL.words (largeAddrs m s.unitL.index) = .error e ∧
      runCase m s = raiseAccess .L e s) := by
  cases h : s.unitL.constructed with
  | false => exact .inl ⟨rfl, by simp [runCase, h, Status.code]⟩
  | true =>
    rcases UnitL.advance_cases Config.large m s.unitL with ⟨x, hx, e⟩ | ⟨e, hx, he⟩
    · exact .inr (.inl ⟨rfl, x, hx, by simp [runCase, h, e]⟩)
    · exact .inr (.inr ⟨rfl, e, hx, by simp [runCase, h, he]⟩)

/-- All NEXTL can answer (R145). -/
theorem execNextl_cases (s : State) :
    (s.unitL.constructed = false ∧ execNextl s = .next (s.answer ⟨3#4, 0#64⟩)) ∨
    (s.unitL.constructed = true ∧
      ∃ x, readLargeTaps s.unitL.words (largeAddrs s.unitL.mode s.unitL.index) = .ok x ∧
        execNextl s = .next (State.answer
          { s with unitL := (s.unitL.after Config.large s.unitL.mode x).1.markStarted }
          ⟨0#4, sampleBits (outputWord s.unitL.tempering (largeNewWords Config.large x).newV0)⟩)) ∨
    (s.unitL.constructed = true ∧
      ∃ e, readLargeTaps s.unitL.words (largeAddrs s.unitL.mode s.unitL.index) = .error e ∧
        execNextl s = raiseAccess .L e s) := by
  cases h : s.unitL.constructed with
  | false => exact .inl ⟨rfl, by simp [execNextl, h, Status.code]⟩
  | true =>
    rcases UnitL.advance_cases Config.large s.unitL.mode s.unitL with ⟨x, hx, e⟩ | ⟨e, hx, he⟩
    · exact .inr (.inl ⟨rfl, x, hx, by simp [execNextl, h, e, UnitL.after]⟩)
    · exact .inr (.inr ⟨rfl, e, hx, by simp [execNextl, h, he]⟩)

/-- The case rule the mode selects. -/
theorem exec_caseRule (m : Mode) (s : State) : exec m.caseRule s = runCase m s := by cases m <;> rfl

/-- A case rule is the one of some mode. -/
theorem caseRule_or (i : Instr) :
    (∃ seed, i = .seeds seed) ∨ (∃ t seed, i = .seedl t seed) ∨ (∃ t, i = .temper t) ∨ i = .nexts ∨ i = .nextl ∨
      ∃ m : Mode, i = m.caseRule := by
  cases i with
  | seeds seed => exact .inl ⟨_, rfl⟩
  | seedl t seed => exact .inr (.inl ⟨_, _, rfl⟩)
  | temper t => exact .inr (.inr (.inl ⟨_, rfl⟩))
  | nexts => exact .inr (.inr (.inr (.inl rfl)))
  | nextl => exact .inr (.inr (.inr (.inr (.inl rfl))))
  | nextlCase1 => exact .inr (.inr (.inr (.inr (.inr ⟨.case1, rfl⟩))))
  | nextlCase2 => exact .inr (.inr (.inr (.inr (.inr ⟨.case2, rfl⟩))))
  | nextlCase3 => exact .inr (.inr (.inr (.inr (.inr ⟨.case3, rfl⟩))))
  | nextlCase4 => exact .inr (.inr (.inr (.inr (.inr ⟨.case4, rfl⟩))))
  | nextlCase5 => exact .inr (.inr (.inr (.inr (.inr ⟨.case5, rfl⟩))))
  | nextlCase6 => exact .inr (.inr (.inr (.inr (.inr ⟨.case6, rfl⟩))))

/-- Everything an instruction can do when it gives a next state: an error that changes nothing but the responses, or
its own effect. -/
theorem exec_next_cases {i : Instr} {s t : State} (h : exec i s = .next t) :
    (∃ e : Status, e ≠ .ok ∧ e ≠ .illegalCommand ∧ t = s.answer ⟨e.code, 0#64⟩) ∨
    (∃ ws, i = .seeds (some ws) ∧ ws.length = 32 ∧
      t = State.answer { s with unitS := UnitS.construct Config.small ws } ⟨0#4, 0#64⟩) ∨
    (∃ b ws, i = .seedl b (some ws) ∧ ws.length = 624 ∧
      t = State.answer { s with unitL := UnitL.construct b ws } ⟨0#4, 0#64⟩) ∨
    (∃ b, i = .temper b ∧ s.unitL.constructed = true ∧ s.unitL.started = false ∧
      t = State.answer { s with unitL := s.unitL.setTempering b } ⟨0#4, 0#64⟩) ∨
    (i = .nexts ∧ s.unitS.constructed = true ∧
      ∃ x, readSmallTaps s.unitS.words (smallAddrs Config.small s.unitS.index) = .ok x ∧
        t = State.answer { s with unitS := (s.unitS.after Config.small x).1 }
          ⟨0#4, sampleBits (smallNewWords Config.small x).newV0⟩) ∨
    (i = .nextl ∧ s.unitL.constructed = true ∧
      ∃ x, readLargeTaps s.unitL.words (largeAddrs s.unitL.mode s.unitL.index) = .ok x ∧
        t = State.answer { s with unitL := (s.unitL.after Config.large s.unitL.mode x).1.markStarted }
          ⟨0#4, sampleBits (outputWord s.unitL.tempering (largeNewWords Config.large x).newV0)⟩) ∨
    (∃ m : Mode, i = m.caseRule ∧ s.unitL.constructed = true ∧
      ∃ x, readLargeTaps s.unitL.words (largeAddrs m s.unitL.index) = .ok x ∧
        t = { s with unitL := (s.unitL.after Config.large m x).1 }) := by
  have access : ∀ u e, raiseAccess u e s = .next t → t = s.answer ⟨Status.indexOutOfRange.code, 0#64⟩ := by
    intro u e h
    rcases raiseAccess_cases u e s with ⟨_, he⟩ | ⟨_, _, he⟩ <;> rw [he] at h <;> cases h
    rfl
  rcases caseRule_or i with ⟨seed, rfl⟩ | ⟨b, seed, rfl⟩ | ⟨b, rfl⟩ | rfl | rfl | ⟨m, rfl⟩
  · rcases execSeeds_cases seed s with ⟨_, e⟩ | ⟨_, _, _, e⟩ | ⟨ws, hs, hl, e⟩ <;> simp only [exec, e] at h <;> cases h
    · exact .inl ⟨.nullSeed, by decide, by decide, rfl⟩
    · exact .inl ⟨.invalidSeedLength, by decide, by decide, rfl⟩
    · exact .inr (.inl ⟨ws, by rw [hs], hl, rfl⟩)
  · rcases execSeedl_cases b seed s with ⟨_, e⟩ | ⟨_, _, _, e⟩ | ⟨ws, hs, hl, e⟩ <;> simp only [exec, e] at h <;> cases h
    · exact .inl ⟨.nullSeed, by decide, by decide, rfl⟩
    · exact .inl ⟨.invalidSeedLength, by decide, by decide, rfl⟩
    · exact .inr (.inr (.inl ⟨b, ws, by rw [hs], hl, rfl⟩))
  · rcases execTemper_cases b s with ⟨_, e⟩ | ⟨_, _, e⟩ | ⟨hc, hs, e⟩ <;> simp only [exec, e] at h <;> cases h
    · exact .inl ⟨.notConstructed, by decide, by decide, rfl⟩
    · exact .inl ⟨.temperingLocked, by decide, by decide, rfl⟩
    · exact .inr (.inr (.inr (.inl ⟨b, rfl, hc, hs, rfl⟩)))
  · rcases execNexts_cases s with ⟨_, e⟩ | ⟨hc, x, hx, e⟩ | ⟨_, er, _, e⟩ <;> simp only [exec, e] at h
    · cases h; exact .inl ⟨.notConstructed, by decide, by decide, rfl⟩
    · cases h; exact .inr (.inr (.inr (.inr (.inl ⟨rfl, hc, x, hx, rfl⟩))))
    · exact .inl ⟨.indexOutOfRange, by decide, by decide, access _ _ h⟩
  · rcases execNextl_cases s with ⟨_, e⟩ | ⟨hc, x, hx, e⟩ | ⟨_, er, _, e⟩ <;> simp only [exec, e] at h
    · cases h; exact .inl ⟨.notConstructed, by decide, by decide, rfl⟩
    · cases h; exact .inr (.inr (.inr (.inr (.inr (.inl ⟨rfl, hc, x, hx, rfl⟩)))))
    · exact .inl ⟨.indexOutOfRange, by decide, by decide, access _ _ h⟩
  · rw [exec_caseRule] at h
    rcases runCase_cases m s with ⟨_, e⟩ | ⟨hc, x, hx, e⟩ | ⟨_, er, _, e⟩ <;> rw [e] at h
    · cases h; exact .inl ⟨.notConstructed, by decide, by decide, rfl⟩
    · cases h; exact .inr (.inr (.inr (.inr (.inr (.inr ⟨m, rfl, hc, x, hx, rfl⟩)))))
    · exact .inl ⟨.indexOutOfRange, by decide, by decide, access _ _ h⟩

end Sys2Proof.Machine
end

