-- ==== Sys2Proof/Laws/Output.lean ====
section
/-! SUPPORT. The binary64 pattern of a word: its fields as numbers, and the position of the highest set bit. -/

namespace Sys2Proof.Machine

/-- The position of the highest set bit is the only one (R173). -/
theorem highestBit_unique {a p q : Nat} (h1 : 2 ^ p ≤ a) (h2 : a < 2 ^ (p + 1)) (h3 : 2 ^ q ≤ a) (h4 : a < 2 ^ (q + 1)) :
    p = q := by
  have a1 := (Nat.pow_lt_pow_iff_right (a := 2) (by decide)).1 (Nat.lt_of_le_of_lt h1 h4)
  have a2 := (Nat.pow_lt_pow_iff_right (a := 2) (by decide)).1 (Nat.lt_of_le_of_lt h3 h2)
  omega

/-- The two cases of R173, with the position `p` of the highest set bit. -/
theorem sampleBits_cases (y : Word) :
    (y = 0#32 ∧ sampleBits y = 0#64) ∨
    ∃ p, p < 32 ∧ 2 ^ p ≤ y.toNat ∧ y.toNat < 2 ^ (p + 1) ∧
      sampleBits y = 0#1 ++ BitVec.ofNat 11 (991 + p) ++ BitVec.ofNat 52 ((y.toNat - 2 ^ p) * 2 ^ (52 - p)) := by
  by_cases h : y = 0#32
  · exact .inl ⟨h, by simp [sampleBits, h]⟩
  · have hn : y.toNat ≠ 0 := fun h0 => h (BitVec.eq_of_toNat_eq (by simpa using h0))
    refine .inr ⟨y.toNat.log2, ?_, Nat.log2_self_le hn, Nat.lt_log2_self, by simp [sampleBits, h, Word.zext]⟩
    by_contra hge
    have h1 := Nat.pow_le_pow_right (n := 2) (by decide) (Nat.le_of_not_lt hge)
    have h2 : 2 ^ y.toNat.log2 ≤ y.toNat := Nat.log2_self_le hn
    have := y.isLt
    omega

/-- The fraction field of R173 fits its 52 bits. -/
theorem fraction_lt {a p : Nat} (hp : p < 32) (h : a < 2 ^ (p + 1)) : (a - 2 ^ p) * 2 ^ (52 - p) < 2 ^ 52 := by
  have h1 : a - 2 ^ p < 2 ^ p := by
    have : 0 < 2 ^ p := Nat.two_pow_pos p
    rw [Nat.pow_succ] at h
    omega
  calc (a - 2 ^ p) * 2 ^ (52 - p) < 2 ^ p * 2 ^ (52 - p) := Nat.mul_lt_mul_of_pos_right h1 (Nat.two_pow_pos _)
    _ = 2 ^ 52 := by rw [← Nat.pow_add]; congr 1; omega

/-- A positive pattern with exponent field `e` and fraction field `f`, read field by field. -/
theorem positivePattern_fields (e f : Nat) (he : e < 2048) (hf : f < 2 ^ 52) :
    let b : BitVec 64 := 0#1 ++ BitVec.ofNat 11 e ++ BitVec.ofNat 52 f
    b.toNat = e * 2 ^ 52 + f ∧ b.getLsbD 63 = false ∧ (b.extractLsb' 52 11).toNat = e ∧
      (b.extractLsb' 0 52).toNat = f := by
  intro b
  have hb : b.toNat = e * 2 ^ 52 + f := by
    show BitVec.toNat (0#1 ++ BitVec.ofNat 11 e ++ BitVec.ofNat 52 f : BitVec (1 + 11 + 52)) = _
    rw [BitVec.toNat_append, BitVec.toNat_append]
    simp only [BitVec.toNat_ofNat, Nat.mod_eq_of_lt (show e < 2 ^ 11 from he), Nat.mod_eq_of_lt hf]
    rw [Nat.shiftLeft_eq_mul_pow]
    simp
    rw [Nat.mul_comm, Nat.two_pow_add_eq_or_of_lt hf]
  refine ⟨hb, ?_, ?_, ?_⟩
  · rw [BitVec.getLsbD, Nat.testBit_eq_decide_div_mod_eq, hb]
    simp
    omega
  · rw [BitVec.extractLsb'_toNat, hb, Nat.shiftRight_eq_div_pow]
    omega
  · rw [BitVec.extractLsb'_toNat, hb, Nat.shiftRight_eq_div_pow]
    omega

end Sys2Proof.Machine
end

