-- ==== Sys2Proof/Laws/PerInstr.lean ====
section
/-! SUPPORT. Statements made for each instruction as syntax. -/

namespace Sys2Proof.Laws.EncodedLength

/-- R78: a command is its command word and its payload words, and a case rule takes no word of the command stream. -/
def Statement (i : Instr) : Prop :=
  (encode i).words.length =
    match i with
    | .seeds seed => 1 + (seed.getD []).length
    | .seedl _ seed => 1 + (seed.getD []).length
    | .temper _ => 1
    | .nexts => 1
    | .nextl => 1
    | .nextlCase1 => 0
    | .nextlCase2 => 0
    | .nextlCase3 => 0
    | .nextlCase4 => 0
    | .nextlCase5 => 0
    | .nextlCase6 => 0

theorem seeds (seed : Option (List Word)) : Statement (.seeds seed) := by
  cases seed <;> simp [Statement, encode, encodeSeed, Code.words, Nat.add_comm]

theorem seedl (t : Bool) (seed : Option (List Word)) : Statement (.seedl t seed) := by
  cases seed <;> simp [Statement, encode, encodeSeed, Code.words, Nat.add_comm]

theorem temper (t : Bool) : Statement (.temper t) := rfl

theorem nexts : Statement .nexts := rfl

theorem nextl : Statement .nextl := rfl

theorem nextlCase1 : Statement .nextlCase1 := rfl

theorem nextlCase2 : Statement .nextlCase2 := rfl

theorem nextlCase3 : Statement .nextlCase3 := rfl

theorem nextlCase4 : Statement .nextlCase4 := rfl

theorem nextlCase5 : Statement .nextlCase5 := rfl

theorem nextlCase6 : Statement .nextlCase6 := rfl

end Sys2Proof.Laws.EncodedLength
end

