-- ==== Sys2Proof/Laws/Ready.lean ====
section
/-! SUPPORT. Steps of an instance in a legal state: they complete, and they leave the unit legal. -/

namespace Sys2Proof.Machine

theorem UnitS.exists_holds {u : UnitS} (h : u.Ready) : ∃ w, u.words.Holds Config.sR w :=
  Memory.exists_holds_of_full (h.2.2.1 h.1)

theorem UnitL.exists_holds {u : UnitL} (h : u.Ready) : ∃ w, u.words.Holds Config.lR w :=
  Memory.exists_holds_of_full (h.2.2.2.1 h.1)

/-- NEXTS on an array that holds `w` (R112). -/
theorem execNexts_of_holds {s : State} {w : Nat → Word} (hc : s.unitS.constructed = true)
    (hw : s.unitS.words.Holds Config.sR w) :
    execNexts s = .next (State.answer
      { s with unitS := (s.unitS.after Config.small (smallTapsOf Config.small w s.unitS.index)).1 }
      ⟨0#4, sampleBits (smallNewWords Config.small (smallTapsOf Config.small w s.unitS.index)).newV0⟩) := by
  simp only [execNexts, hc, UnitS.advance_of_holds Config.small hw]
  rfl

/-- A case rule on its region, on an array that holds `w` (R137 to R142). -/
theorem runCase_of_holds {s : State} {w : Nat → Word} (hc : s.unitL.constructed = true)
    (hi : s.unitL.index < Config.lR) (hw : s.unitL.words.Holds Config.lR w) :
    runCase (regionOf s.unitL.index) s = .next
      { s with unitL := (s.unitL.after Config.large (regionOf s.unitL.index) (largeTapsOf w s.unitL.index)).1 } := by
  simp only [runCase, hc, UnitL.advance_of_holds Config.large hi hw]
  rfl

/-- NEXTL on an array that holds `w` (R145). -/
theorem execNextl_of_holds {s : State} {w : Nat → Word} (h : s.unitL.Ready)
    (hw : s.unitL.words.Holds Config.lR w) :
    execNextl s = .next (State.answer
      { s with unitL :=
        (s.unitL.after Config.large (regionOf s.unitL.index) (largeTapsOf w s.unitL.index)).1.markStarted }
      ⟨0#4, sampleBits (outputWord s.unitL.tempering
        (largeNewWords Config.large (largeTapsOf w s.unitL.index)).newV0)⟩) := by
  simp only [execNextl, h.1, h.2.2.1, UnitL.advance_of_holds Config.large h.2.1 hw]
  rfl

/-- A step of unit S leaves a legal instance. -/
theorem UnitS.after_ready (c : Config.SmallParams) {u : UnitS} (h : u.Ready) (x : SmallTaps) :
    (u.after c x).1.Ready := by
  have lt : ∀ x : Nat, x % 32 < Config.sR := fun x => Nat.mod_lt _ (by decide)
  refine ⟨h.1, lt _, fun _ => ?_, fun hf => ?_⟩
  · exact Memory.full_write (Memory.full_write (h.2.2.1 h.1) (lt _) _) (lt _) _
  · have h1 : u.constructed = false := hf
    rw [h.1] at h1
    cases h1

/-- The case rule of the region leaves a legal instance. -/
theorem UnitL.after_ready (c : Config.LargeParams) {u : UnitL} (h : u.Ready) (x : LargeTaps) :
    (u.after c (regionOf u.index) x).1.Ready := by
  have lt : ∀ x : Nat, x % 624 < Config.lR := fun x => Nat.mod_lt _ (by decide)
  rw [UnitL.after_modular c h.2.1]
  refine ⟨h.1, lt _, by simp only, fun _ => ?_, fun hf => ?_, fun _ => h.1⟩
  · exact Memory.full_write (Memory.full_write (h.2.2.2.1 h.1) h.2.1 _) (lt _) _
  · have h1 : u.constructed = false := hf
    rw [h.1] at h1
    cases h1

theorem UnitL.markStarted_ready {u : UnitL} (h : u.Ready) : u.markStarted.Ready :=
  ⟨h.1, h.2.1, h.2.2.1, h.2.2.2.1, h.2.2.2.2.1, fun _ => h.1⟩

theorem UnitL.setTempering_legal {u : UnitL} (t : Bool) (h : u.Legal) : (u.setTempering t).Legal := h

theorem UnitS.construct_ready {ws : List Word} (h : ws.length = Config.sR) :
    (UnitS.construct Config.small ws).Ready :=
  ⟨rfl, Nat.zero_lt_succ _, fun _ => h ▸ Memory.full_ofSeed ws, fun hf => Bool.noConfusion hf⟩

theorem UnitL.construct_ready (t : Bool) {ws : List Word} (h : ws.length = Config.lR) :
    (UnitL.construct t ws).Ready :=
  ⟨rfl, Nat.zero_lt_succ _, rfl, fun _ => h ▸ Memory.full_ofSeed ws, fun hf => Bool.noConfusion hf,
    fun _ => rfl⟩

end Sys2Proof.Machine
end

