-- ==== Sys2Proof/Laws/Run.lean ====
section
/-! SUPPORT. The front of the command stream, what a step can do, and repeated instructions. -/

namespace Sys2Proof.Machine

/-- What decodes from the command stream is a command, never a case rule (R72, R76). -/
theorem isCommand_of_decode {ws : List Word} {i : Instr} {used : Nat} (h : decode ws = .instr i used) :
    i.isCommand = true := by
  unfold decode at h
  split at h
  · cases h
  · split at h
    · cases h
    · next hd _ =>
      split at h
      · cases h
        cases hd <;> rfl
      · cases h

/-- A payload at the front of the inputs is what the decoder sees there. -/
theorem leadingWords_append (payload : List Word) (rest : List HostInput) :
    leadingWords (payload.map .word ++ rest) = payload ++ leadingWords rest := by
  induction payload with
  | nil => rfl
  | cons w ws ih => simp [leadingWords, ih]

/-- All that can stand at the host interface. -/
theorem fetch_cases (inputs : List HostInput) :
    (inputs = [] ∧ fetch inputs = .nothing) ∨
    (∃ rest, inputs = .reset :: rest ∧ fetch inputs = .reset) ∨
    (∃ i used, decode (leadingWords inputs) = .instr i used ∧ fetch inputs = .command i used) ∨
    (decode (leadingWords inputs) = .illegal ∧ fetch inputs = .illegal) ∨
    (∃ w rest, inputs = .word w :: rest ∧ decode (leadingWords inputs) = .incomplete ∧
      fetch inputs = .incomplete) := by
  cases inputs with
  | nil => exact .inl ⟨rfl, rfl⟩
  | cons x rest =>
    cases x with
    | reset => exact .inr (.inl ⟨rest, rfl, rfl⟩)
    | word w =>
      cases hd : decode (w :: leadingWords rest) with
      | instr i used => exact .inr (.inr (.inl ⟨i, used, hd, by simp only [fetch, hd]⟩))
      | illegal => exact .inr (.inr (.inr (.inl ⟨hd, by simp only [fetch, hd]⟩)))
      | incomplete => exact .inr (.inr (.inr (.inr ⟨w, rest, rfl, hd, by simp only [fetch, hd]⟩)))

/-- Everything a step can do when it gives a next state: the reset event, an illegal command word, or a command. -/
theorem step_next_cases {s t : State} (h : step s = .next t) :
    (∃ rest, s.inputs = .reset :: rest ∧ t = s.takeReset) ∨
    (decode (leadingWords s.inputs) = .illegal ∧ t = (s.consume 1).answer ⟨5#4, 0#64⟩) ∨
    (∃ i used, decode (leadingWords s.inputs) = .instr i used ∧ i.isCommand = true ∧
      exec i (s.consume used) = .next t) := by
  unfold step at h
  rcases fetch_cases s.inputs with ⟨_, e⟩ | ⟨rest, hr, e⟩ | ⟨i, used, hd, e⟩ | ⟨hd, e⟩ | ⟨_, _, _, _, e⟩ <;>
    rw [e] at h
  · cases h
  · cases h; exact .inl ⟨rest, hr, rfl⟩
  · exact .inr (.inr ⟨i, used, hd, isCommand_of_decode hd, h⟩)
  · cases h; exact .inr (.inl ⟨hd, rfl⟩)
  · cases h

/-- One more copy at the end of a repetition. -/
theorem runRep_succ (i : Instr) (k : Nat) (s t : State) (h : runRep i k s = .next t) :
    runRep i (k + 1) s = exec i t := by
  induction k generalizing s with
  | zero =>
    simp only [runRep] at h
    cases h
    simp only [runRep]
    cases he : exec i t <;> rfl
  | succ k ih =>
    rw [runRep] at h ⊢
    cases he : exec i s with
    | next u => rw [he] at h; exact ih u h
    | fault r => rw [he] at h; cases h
    | refused r => rw [he] at h; cases h

/-- Placing words at the interface leaves them at the front of the command stream. -/
theorem leadingWords_issue (ws : List Word) (s : State) :
    leadingWords (s.issue ws).inputs = ws ++ leadingWords s.inputs := by
  rw [State.issue_inputs, leadingWords_append]

end Sys2Proof.Machine
end

