-- ==== Sys2Proof/Tests/Slice0.lean ====
section
/-! SUPPORT. Tests with expected results from the spec (the section is named), the refusals of WellFormed, and a witness
for every statement with hypotheses. -/

namespace Sys2Proof.Tests

open Sys2Proof Sys2Proof.Machine Sys2Proof.Claims

/-! Small states. -/

/-- The instruction gives a next state with the property. -/
def resultIs (r : Result) (p : State → Bool) : Bool :=
  match r with
  | .next t => p t
  | .fault _ | .refused _ => false

/-- The instruction gives exactly this next state. -/
def gives (r : Result) (t : State) : Bool := resultIs r (fun u => u = t)

/-- Refused for this reason. -/
def refusedFor (r : Result) (x : Refusal) : Bool :=
  match r with
  | .refused y => y = x
  | .next _ | .fault _ => false

/-- Reset, with one response given. -/
def resetAnswered (code : BitVec 4) : State := { State.reset with responses := [⟨code, 0#64⟩] }

/-- Seed A of 95_test_vectors.md, constructed, at an index. -/
def stateS (i : Nat) : State :=
  { State.reset with
    unitS := { words := Memory.ofSeed (1#32 :: List.replicate 31 0#32), index := i, constructed := true } }

/-- The all-zero unit L at an index, in the mode of its region. -/
def stateL (i : Nat) (started : Bool) : State :=
  { State.reset with
    unitL := { words := Memory.ofSeed (List.replicate 624 0#32), index := i, mode := regionOf i, tempering := false,
               constructed := true, started } }

/-- A unit L that holds values only at the addresses a step reads. -/
def sparseL (i : Nat) (m : Mode) (tempering : Bool) (cells : Memory) : State :=
  { State.reset with
    unitL := { words := cells, index := i, mode := m, tempering, constructed := true, started := false } }

/-- A state whose host has issued these words. -/
def issued (ws : List Word) : State := State.reset.issue ws

theorem stateS_ready {i : Nat} (h : i < 32) : (stateS i).unitS.Ready :=
  ⟨rfl, h, fun _ => Memory.full_ofSeed (1#32 :: List.replicate 31 0#32), fun hf => Bool.noConfusion hf⟩

theorem stateL_ready {i : Nat} (h : i < 624) (b : Bool) : (stateL i b).unitL.Ready :=
  ⟨rfl, h, rfl,
    fun _ => by
      have := Memory.full_ofSeed (List.replicate 624 0#32)
      rw [List.length_replicate] at this
      exact this,
    fun hf => Bool.noConfusion hf, fun _ => rfl⟩

theorem stateL_holds (i : Nat) (b : Bool) : (stateL i b).unitL.words.Holds 624 (fun _ => 0#32) := fun a ha => by
  show (Memory.ofSeed (List.replicate 624 0#32)).read a = some 0#32
  rw [Memory.read_ofSeed, List.getElem?_replicate, if_pos ha]

theorem stateS_holds (i : Nat) : (stateS i).unitS.words.Holds 32 (fun a => if a = 0 then 1#32 else 0#32) := by
  show Memory.Holds (Memory.ofSeed (1#32 :: List.replicate 31 0#32)) 32 _
  decide

theorem stateS_inv {i : Nat} (h : i < 32) : (stateS i).Inv := ⟨(stateS_ready h).2, (by decide : UnitL.reset.Legal)⟩

theorem stateL_inv {i : Nat} (h : i < 624) (b : Bool) : (stateL i b).Inv := ⟨(by decide : UnitS.reset.Legal), (stateL_ready h b).2⟩

theorem stateS_completes {i : Nat} (h : i < 32) : ∃ t, exec .nexts (stateS i) = .next t := by
  obtain ⟨w, hw⟩ := UnitS.exists_holds (stateS_ready h)
  exact ⟨_, execNexts_of_holds rfl hw⟩

theorem stateL_completes {i : Nat} (h : i < 624) (b : Bool) : ∃ t, exec .nextl (stateL i b) = .next t := by
  obtain ⟨w, hw⟩ := UnitL.exists_holds (stateL_ready h b)
  exact ⟨_, execNextl_of_holds (stateL_ready h b) hw⟩

theorem stateL_caseCompletes {i : Nat} (h : i < 624) (b : Bool) :
    ∃ t, exec (regionOf i).caseRule (stateL i b) = .next t := by
  obtain ⟨w, hw⟩ := UnitL.exists_holds (stateL_ready h b)
  exact ⟨_, (exec_caseRule _ _).trans (runCase_of_holds rfl h hw)⟩

/-! WellFormed refuses a seed whose count has no encoding (R71, R81); an amount of 32 has no spelling at all (R103). -/

theorem smoke_seeds_too_long : (Instr.seeds (some (List.replicate 65536 0#32))).wf = false := by
  simp only [Instr.wf, seedFits, List.length_replicate]
  decide

theorem smoke_seedl_too_long : (Instr.seedl true (some (List.replicate 65536 0#32))).wf = false := by
  simp only [Instr.wf, seedFits, List.length_replicate]
  decide

theorem smoke_seeds_longest : (Instr.seeds (some (List.replicate 65535 0#32))).wf = true := by
  simp only [Instr.wf, seedFits, List.length_replicate]
  decide

/-! Decoding: 95_test_vectors.md section 6, with the words written out in bits from the field table R71. -/

theorem test_decode_seeds_none : decode [0b0001_0_0_0000000000_0000000000000000#32] = .instr (.seeds none) 1 := by decide
theorem test_decode_seeds_32 :
    decode (0b0001_0_1_0000000000_0000000000100000#32 :: List.replicate 33 5#32) =
      .instr (.seeds (some (List.replicate 32 5#32))) 33 := by decide +kernel
theorem test_decode_seedl_tempered :
    decode [0b0010_1_1_0000000000_0000000000000001#32, 9#32] = .instr (.seedl true (some [9#32])) 2 := by decide
theorem test_decode_seedl_none : decode [0b0010_0_0_0000000000_0000000000000000#32] = .instr (.seedl false none) 1 := by decide
theorem test_decode_temper_off : decode [0b0011_0_0_0000000000_0000000000000000#32] = .instr (.temper false) 1 := by decide
theorem test_decode_temper_on : decode [0b0011_1_0_0000000000_0000000000000000#32] = .instr (.temper true) 1 := by decide
theorem test_decode_nexts : decode [0b0100_0_0_0000000000_0000000000000000#32] = .instr .nexts 1 := by decide
theorem test_decode_nextl : decode [0b0101_0_0_0000000000_0000000000000000#32] = .instr .nextl 1 := by decide
theorem test_decode_modes :
    [0b000#3, 0b001#3, 0b010#3, 0b011#3, 0b100#3, 0b101#3, 0b110#3, 0b111#3].map (fun m => (decodeMode m).map Mode.caseRule) =
      [none, some .nextlCase1, some .nextlCase2, some .nextlCase3, some .nextlCase4, some .nextlCase5,
        some .nextlCase6, none] := by decide
theorem test_decode_illegal :
    [0x10000020#32, 0x18000000#32, 0x14010020#32, 0x34000000#32, 0x30000001#32, 0x48000000#32, 0x44000000#32,
      0x40000001#32, 0x58000000#32, 0x50800000#32, 0x00000000#32, 0x60000000#32, 0xF0000000#32, 0xFFFFFFFF#32].map
      (fun c => decode [c]) = List.replicate 14 .illegal := by decide
theorem test_decode_incomplete : decode [0x14000020#32, 1#32] = .incomplete := by decide
theorem test_encode_seeds : encode (.seeds (some [7#32, 8#32])) = .cmd32 [0x14000002#32, 7#32, 8#32] := by decide
theorem test_table_rows :
    [decodeTableWord 32 0x10000000, decodeTableWord 32 0x38000000, decodeTableWord 64 0x0000000924000001,
      decodeTableWord 8 5, decodeTableWord 8 7, decodeTableWord 32 0] =
      [some (.seeds none), some (.temper true), some (.seedl false (some [9#32])), some .nextlCase5, none, none] := by
  decide
/-- R79: the example `.rep 3, NEXTS` after a construction, and `.word`. -/
theorem test_assemble :
    assemble [.cmd (.seeds (some [1#32])), .rep 3 .nexts, .word 0#32] =
      [0x14000001#32, 1#32, 0x40000000#32, 0x40000000#32, 0x40000000#32, 0#32] := by decide

/-! Primitives and output: 95_test_vectors.md section 2. -/

theorem test_mixRight : mixRight 9 0xDEADBEEF#32 = 0xDEC2E830#32 ∧ mixRight 31 0x80000000#32 = 0x80000001#32 := by decide
theorem test_mixLeft : mixLeft 19 0x00001234#32 = 0x91A01234#32 ∧ mixLeft 1 0x80000001#32 = 0x80000003#32 := by decide
theorem test_shiftRightOnly : shiftRightOnly 21 0xCAFEBABE#32 = 0x00000657#32 := by decide
theorem test_temper : temper 0xDEADBEEF#32 = 0x0A6529EF#32 ∧ temperPass1 0x12345678#32 = 0x121E4278#32 := by decide
theorem test_sampleBits : sampleBits 0x00010000#32 = 0x3EF0000000000000#64 := by decide

/-! Unit S: 95_test_vectors.md section 3. -/

/-- V1 step 1. -/
theorem test_nexts_v1 :
    resultIs (exec .nexts (stateS 0)) (fun t => t.unitS.words.read 0 = some 1#32 ∧ t.unitS.words.read 31 = some 0x81#32 ∧
      t.unitS.index = 31 ∧ t.responses = [⟨0#4, 0x3E60200000000000#64⟩]) = true := by decide

/-- V2 step 2, with the five words it reads. -/
theorem test_nexts_v2 :
    resultIs (exec .nexts { State.reset with unitS := {
        words := [(4, 0x1715609D#32), (8, 0x8FF34781#32), (12, 0x08D12E65#32), (30, 0x28B7BD67#32), (31, 0x9DEC72C3#32)]
        index := 31, constructed := true } })
      (fun t => t.unitS.words.read 31 = some 0x69FCEA94#32 ∧ t.unitS.words.read 30 = some 0x4A852BF3#32 ∧
        t.unitS.index = 30 ∧ t.responses = [⟨0#4, 0x3FD2A14AFCC00000#64⟩]) = true := by decide

/-! Unit L: 95_test_vectors.md section 4. -/

/-- V4 step 1. -/
theorem test_nextlCase1_step1 :
    resultIs (exec .nextlCase1 (sparseL 0 .case1 false
      [(0, 0x9E3779B9#32), (70, 0xE162C24F#32), (179, 0x3F019614#32), (449, 0x1D83F732#32), (622, 0x09013937#32), (623, 0xA738B2F0#32)]))
      (fun t => t.unitL.words.read 0 = some 0x1E08378A#32 ∧ t.unitL.words.read 623 = some 0xAE76EDC7#32 ∧
        t.unitL.index = 623 ∧ t.unitL.mode = .case3 ∧ t.unitL.started = false ∧ t.responses = []) = true := by decide

/-- V4 step 71. -/
theorem test_nextlCase3_step71 :
    resultIs (exec .nextlCase3 (sparseL 554 .case3 false
      [(0, 0x1E08378A#32), (109, 0xFBD64D7E#32), (379, 0xDA58AE9C#32), (552, 0xC5D5F0A1#32), (553, 0x640D6A5A#32), (554, 0x068F44FA#32)]))
      (fun t => t.unitL.words.read 554 = some 0x5B8E6187#32 ∧ t.unitL.words.read 553 = some 0x15B3147D#32 ∧
        t.unitL.index = 553 ∧ t.unitL.mode = .case5 ∧ t.unitL.started = false ∧ t.responses = []) = true := by decide

/-- V4 step 180. -/
theorem test_nextlCase5_step180 :
    resultIs (exec .nextlCase5 (sparseL 445 .case5 false
      [(0, 0x1E08378A#32), (270, 0x7CB9DAD7#32), (443, 0x68371CDC#32), (444, 0x066E9695#32), (445, 0x9C3C21B1#32), (515, 0xC3FF222E#32)]))
      (fun t => t.unitL.words.read 445 = some 0x7F293020#32 ∧ t.unitL.words.read 444 = some 0x9AD01125#32 ∧
        t.unitL.index = 444 ∧ t.unitL.mode = .case4 ∧ t.unitL.started = false ∧ t.responses = []) = true := by decide

/-- V4 step 450. -/
theorem test_nextlCase4_step450 :
    resultIs (exec .nextlCase4 (sparseL 175 .case4 false
      [(0, 0x1E08378A#32), (173, 0x89B4BBBE#32), (174, 0x27EC3577#32), (175, 0xE3FF3ED3#32), (245, 0x4CB07671#32), (354, 0x0FDD7E36#32)]))
      (fun t => t.unitL.words.read 175 = some 0x18448A5B#32 ∧ t.unitL.words.read 174 = some 0xC925ED7C#32 ∧
        t.unitL.index = 174 ∧ t.unitL.mode = .case6 ∧ t.unitL.started = false ∧ t.responses = []) = true := by decide

/-- V4 step 623. -/
theorem test_nextlCase6_step623 :
    resultIs (exec .nextlCase6 (sparseL 2 .case6 false
      [(0, 0x1E08378A#32), (1, 0x3C6EF372#32), (2, 0x0D8BBF25#32), (72, 0xE7F13E5F#32), (181, 0xDB46BEBA#32), (451, 0xB6FD25B8#32)]))
      (fun t => t.unitL.words.read 2 = some 0x4D94955D#32 ∧ t.unitL.words.read 1 = some 0x6C6AF9E6#32 ∧
        t.unitL.index = 1 ∧ t.unitL.mode = .case2 ∧ t.unitL.started = false ∧ t.responses = []) = true := by decide

/-- V4 step 624. -/
theorem test_nextlCase2_step624 :
    resultIs (exec .nextlCase2 (sparseL 1 .case2 false
      [(0, 0x1E08378A#32), (1, 0x6C6AF9E6#32), (71, 0x682EFCE5#32), (180, 0xD43DBAB4#32), (450, 0x8868196A#32), (623, 0x23E78392#32)]))
      (fun t => t.unitL.words.read 1 = some 0x04720E0C#32 ∧ t.unitL.words.read 0 = some 0xCBAD9FB1#32 ∧
        t.unitL.index = 0 ∧ t.unitL.mode = .case1 ∧ t.unitL.started = false ∧ t.responses = []) = true := by decide

/-- V4 step 71 by NEXTL, raw. -/
theorem test_nextl_step71_raw :
    resultIs (exec .nextl (sparseL 554 .case3 false
      [(0, 0x1E08378A#32), (109, 0xFBD64D7E#32), (379, 0xDA58AE9C#32), (552, 0xC5D5F0A1#32), (553, 0x640D6A5A#32),
        (554, 0x068F44FA#32)]))
      (fun t => t.unitL.index = 553 ∧ t.unitL.started = true ∧ t.responses = [⟨0#4, 0x3FB5B3147D000000#64⟩]) = true := by
  decide

/-- V4 step 71 by NEXTL, tempered: the stored word is the raw one. -/
theorem test_nextl_step71_tempered :
    resultIs (exec .nextl (sparseL 554 .case3 true
      [(0, 0x1E08378A#32), (109, 0xFBD64D7E#32), (379, 0xDA58AE9C#32), (552, 0xC5D5F0A1#32), (553, 0x640D6A5A#32),
        (554, 0x068F44FA#32)]))
      (fun t => t.unitL.words.read 553 = some 0x15B3147D#32 ∧ t.unitL.tempering = true ∧
        t.responses = [⟨0#4, 0x3FD52FE09F400000#64⟩]) = true := by decide

/-- Section 5: the off-cycle pairs (0, Case3), (600, Case1) and (0, Case6) are out of range. -/
theorem test_offCycle :
    ∀ p ∈ [(0, Mode.case3), (600, .case1), (0, .case6)],
      let s := sparseL p.1 p.2 false (stateL 0 true).unitL.words
      gives (exec .nextl s) { s with responses := [⟨6#4, 0#64⟩] } = true ∧
        gives (exec p.2.caseRule s) { s with responses := [⟨6#4, 0#64⟩] } = true := by
  decide +kernel

/-! Construction, configuration and errors: 95_test_vectors.md section 7. -/

theorem test_reset_rejects :
    ∀ p ∈ [(Instr.nexts, 3#4), (.nextl, 3#4), (.temper true, 3#4), (.seeds none, 1#4), (.seeds (some []), 2#4),
      (.seeds (some (List.replicate 31 5#32)), 2#4), (.seeds (some (List.replicate 33 5#32)), 2#4),
      (.seedl true none, 1#4), (.seedl false (some (List.replicate 32 5#32)), 2#4)],
      gives (exec p.1 .reset) (resetAnswered p.2) = true := by decide +kernel
theorem test_seeds_32 :
    gives (exec (.seeds (some (1#32 :: List.replicate 31 0#32))) .reset)
      { stateS 0 with responses := [⟨0#4, 0#64⟩] } = true := by decide +kernel
theorem test_seedl_623_625 :
    ∀ n ∈ [623, 625], gives (exec (.seedl false (some (List.replicate n 5#32))) .reset) (resetAnswered 2#4) = true := by
  decide +kernel
theorem test_seedl_624 :
    resultIs (exec (.seedl true (some (1#32 :: List.replicate 623 0#32))) .reset)
      (fun t => t.unitL.words.read 0 = some 1#32 ∧ t.unitL.words.read 623 = some 0#32 ∧ t.unitL.index = 0 ∧
        t.unitL.mode = .case1 ∧ t.unitL.tempering = true ∧ t.unitL.started = false ∧ t.unitL.constructed = true ∧
        t.unitS = .reset) = true := by decide +kernel
theorem test_temper_open :
    resultIs (exec (.temper true) (sparseL 0 .case1 false [])) (fun t => t.unitL.tempering = true) = true := by decide
theorem test_temper_locked :
    gives (exec (.temper true) (stateL 1 true)) { stateL 1 true with responses := [⟨4#4, 0#64⟩] } = true := by
  decide +kernel

/-! Steps. -/

theorem test_step_command :
    gives (step (issued [0x38000000#32, 0x40000000#32]))
      { issued [0x40000000#32] with responses := [⟨3#4, 0#64⟩] } = true := by decide
/-- Section 6: the reserved bit makes the word illegal and the words after it are commands. -/
theorem test_step_illegal :
    gives (step (issued [0x14010020#32, 0x40000000#32]))
      { issued [0x40000000#32] with responses := [⟨5#4, 0#64⟩] } = true := by decide
theorem test_step_reset :
    gives (step { stateS 3 with inputs := [.reset, .word 7#32] }) { State.reset with inputs := [.word 7#32] } = true := by
  decide
theorem test_step_stops :
    refusedFor (step .reset) .noHostInput = true ∧
    refusedFor (step (issued [0x14000001#32])) .incompletePayload = true := by decide
theorem test_withFetchWord_command :
    gives (step (State.reset.withFetchWord 32 0x40000000)) (resetAnswered 3#4) = true := by decide
theorem test_withFetchWord_mode :
    resultIs (step (State.reset.withFetchWord 8 4))
      (fun t => t.unitL.index = 443 ∧ t.unitL.mode = .case4 ∧ t.responses = [⟨0#4, 0#64⟩]) = true := by decide +kernel

/-! Witnesses: states and operands that meet the hypotheses of the statements, clause by clause. -/

theorem witness_EncodedInstructionsDecodeBack :
    ∀ i ∈ [Instr.seeds none, .seeds (some [7#32]), .seedl true (some []), .temper true, .nexts, .nextl, .nextlCase6],
      i.wf = true := by decide
theorem witness_EncodedInstructionsDecodeBack_words : encode (.seeds (some [7#32])) = .cmd32 [0x14000001#32, 7#32] := by
  decide
theorem witness_DecodedWordsAreTheOnlyEncoding :
    decode [0x14000001#32, 7#32, 9#32] = .instr (.seeds (some [7#32])) 2 ∧ decodeMode 6#3 = some .case6 := by decide
theorem witness_IllegalCommandWords :
    (IllegalByR77 0x00000000#32 ∧ IllegalByR77 0x60000000#32 ∧ IllegalByR77 0xFFFFFFFF#32 ∧ IllegalByR77 0x14010020#32 ∧
      IllegalByR77 0x42000000#32 ∧ IllegalByR77 0x18000000#32 ∧ IllegalByR77 0x34000000#32 ∧ IllegalByR77 0x30000001#32 ∧
      IllegalByR77 0x1000FFFF#32) ∧
    (issued [0#32, 7#32]).inputs = .word 0#32 :: [.word 7#32] := by
  refine ⟨⟨?_, ?_, ?_, ?_, ?_, ?_, ?_, ?_, ?_⟩, rfl⟩ <;> (unfold IllegalByR77; dsimp only; decide)
theorem witness_CommandMatchAndMask :
    0x1400FFFF#32 &&& 0xFBFF0000#32 = 0x10000000#32 ∧ 0x10000001#32 &&& 0xFBFF0000#32 = 0x10000000#32 ∧
    0x2C000270#32 &&& 0xF3FF0000#32 = 0x20000000#32 ∧ 0x38000000#32 &&& 0xF7FFFFFF#32 = 0x30000000#32 ∧
    0x40000000#32 &&& 0xFFFFFFFF#32 = 0x40000000#32 ∧ 0x50000000#32 &&& 0xFFFFFFFF#32 = 0x50000000#32 ∧
    decodeHeader 0x10000000#32 ≠ none := by decide
theorem witness_StepRunsTheDecodedCommand :
    decode (leadingWords (issued [0x14000001#32, 7#32, 0x40000000#32]).inputs) = .instr (.seeds (some [7#32])) 2 := by
  decide
theorem witness_CommandTakesItsWholePayload :
    decodeHeader 0x14000002#32 = some (.seeds (some 2)) ∧ [7#32, 8#32].length = (Header.seeds (some 2)).payloadLength ∧
    (issued [0x14000002#32, 7#32, 8#32, 0x40000000#32]).inputs =
      .word 0x14000002#32 :: ([7#32, 8#32].map .word ++ [.word 0x40000000#32]) ∧
    resultIs (step (issued [0x14000002#32, 7#32, 8#32, 0x40000000#32])) (fun _ => true) = true := by decide
theorem witness_mixes :
    (1 : ShiftAmount) ≠ 0 ∧ 32 - (1 : ShiftAmount).val ≤ 31 ∧ (31 : ShiftAmount) ≠ 0 ∧
    32 - (31 : ShiftAmount).val ≤ 1 ∧ 30 < (31 : ShiftAmount).val ∧ 0 < (1 : ShiftAmount).val := by decide
theorem witness_shiftRightOnly :
    32 - (0 : ShiftAmount).val ≤ 32 ∧ 32 - (31 : ShiftAmount).val ≤ 1 ∧
    ∀ i, (1 : ShiftAmount).val ≤ i → (0#32).getLsbD i = (1#32).getLsbD i := by
  refine ⟨by decide, by decide, fun i hi => ?_⟩
  simp only [BitVec.getLsbD_zero, BitVec.getLsbD_one]
  have : 1 ≤ i := hi
  simp
  omega
theorem witness_SampleBits :
    2 ^ 0 ≤ (1#32).toNat ∧ (1#32).toNat < 2 ^ (0 + 1) ∧ 2 ^ 31 ≤ (0xFFFFFFFF#32).toNat ∧
    (0xFFFFFFFF#32).toNat < 2 ^ (31 + 1) ∧ sampleBits 1#32 ≠ 0#64 := by decide
theorem witness_NextsComputesTheRecurrence :
    ∀ i < 32, (stateS i).unitS.constructed = true ∧ (stateS i).unitS.index < 32 ∧
      (stateS i).unitS.words.Holds 32 (fun a => if a = 0 then 1#32 else 0#32) :=
  fun i h => ⟨rfl, h, stateS_holds i⟩
theorem witness_noInstance : State.reset.unitS.constructed = false ∧ State.reset.unitL.constructed = false := by decide
theorem witness_NextsFrame : (∃ t, exec .nexts (stateS 0) = .next t) ∧ (∃ t, exec .nexts (stateS 31) = .next t) ∧
    ∃ t, exec .nexts .reset = .next t :=
  ⟨stateS_completes (by decide), stateS_completes (by decide), _, rfl⟩
theorem witness_NextsIndexCycle : (stateS 0).unitS.Ready ∧ (stateS 31).unitS.Ready :=
  ⟨stateS_ready (by decide), stateS_ready (by decide)⟩
/-- Each clause of CaseRulesComputeTheStep at both ends of its region. -/
theorem witness_CaseRulesComputeTheStep :
    ∀ i ∈ [0, 1, 2, 174, 175, 444, 445, 553, 554, 623],
      (stateL i true).unitL.constructed = true ∧ (stateL i true).unitL.words.Holds 624 (fun _ => 0#32) ∧
        (stateL i true).unitL.index = i :=
  fun i _ => ⟨rfl, stateL_holds i true, rfl⟩
theorem witness_CaseRulesFrame :
    ∀ i < 624, ∃ t, exec (regionOf i).caseRule (stateL i true) = .next t := fun _ h => stateL_caseCompletes h true
theorem witness_CaseRuleOutsideItsRegionIsAnError :
    (stateL 0 true).unitL.constructed = true ∧ (stateL 0 true).unitL.words.Holds 624 (fun _ => 0#32) ∧
    Mode.case3 ≠ regionOf (stateL 0 true).unitL.index ∧
    (stateL 624 true).unitL.words.Holds 624 (fun _ => 0#32) ∧ 624 ≤ (stateL 624 true).unitL.index :=
  ⟨rfl, stateL_holds 0 true, by decide, stateL_holds 624 true, Nat.le_refl _⟩
/-- A legal instance of unit L at every index: the hypothesis of the statements about NEXTL. -/
theorem witness_unitLReady : ∀ i < 624, (stateL i false).unitL.Ready ∧ (stateL i true).unitL.Ready :=
  fun _ h => ⟨stateL_ready h false, stateL_ready h true⟩
/-- Off the region, for NEXTL: index 0 with mode Case3, and index 624. -/
theorem witness_NextlOffItsRegion :
    (let s := sparseL 0 .case3 false (stateL 0 true).unitL.words
     s.unitL.constructed = true ∧ s.unitL.words.Holds 624 (fun _ => 0#32) ∧ s.unitL.mode ≠ regionOf s.unitL.index) ∧
    (stateL 624 true).unitL.constructed = true ∧ (stateL 624 true).unitL.words.Holds 624 (fun _ => 0#32) ∧
    624 ≤ (stateL 624 true).unitL.index :=
  ⟨⟨rfl, stateL_holds 0 true, by decide⟩, rfl, stateL_holds 624 true, Nat.le_refl _⟩
theorem witness_NextlFrame : ∃ t, exec .nextl (stateL 623 false) = .next t := stateL_completes (by decide) false
theorem witness_SixCasesEqualTheModularRecurrence :
    (stateL 1 true).unitL.Ready ∧ (stateL 1 true).unitL.words.Holds 624 (fun _ => 0#32) :=
  ⟨stateL_ready (by decide) true, stateL_holds 1 true⟩
theorem witness_LowBitsOfTheBoundaryWordAreDead :
    (stateL 0 true).unitL.Ready ∧ (stateL 0 true).unitL.words.read (((stateL 0 true).unitL.index + 623) % 624) = some 0#32 ∧
    (0x7FFFFFFF#32).getLsbD 31 = (0#32).getLsbD 31 :=
  ⟨stateL_ready (by decide) true, stateL_holds 0 true 623 (by decide), by decide⟩
theorem witness_ZeroStateStaysZero :
    (∃ s : State, s.unitS.Ready ∧ s.unitS.words.allZero) ∧ ∃ s : State, s.unitL.Ready ∧ s.unitL.words.allZero := by
  refine ⟨⟨{ State.reset with unitS := UnitS.construct Config.small (List.replicate 32 0#32) },
    UnitS.construct_ready List.length_replicate, by decide⟩,
    stateL 0 false, stateL_ready (by decide) false, ?_⟩
  show Memory.allZero (Memory.ofSeed (List.replicate 624 0#32))
  decide +kernel
theorem witness_seedLengths :
    (List.replicate 31 0#32 : List Word).length ≠ 32 ∧ (List.replicate 32 0#32 : List Word).length = 32 ∧
    (List.replicate 33 0#32 : List Word).length ≠ 32 ∧ (List.replicate 623 0#32 : List Word).length ≠ 624 ∧
    (List.replicate 624 0#32 : List Word).length = 624 ∧ (List.replicate 625 0#32 : List Word).length ≠ 624 := by
  simp only [List.length_replicate]
  decide
theorem witness_TemperSetsTheSwitchBeforeTheFirstSample :
    State.reset.unitL.constructed = false ∧
    ((stateL 0 true).unitL.constructed = true ∧ (stateL 0 true).unitL.started = true) ∧
    ((stateL 0 false).unitL.constructed = true ∧ (stateL 0 false).unitL.started = false) := ⟨rfl, ⟨rfl, rfl⟩, rfl, rfl⟩
theorem witness_ReseedingKeepsNothing :
    (∃ t t', exec (.seeds (some (List.replicate 32 0#32))) (stateS 3) = .next t ∧
      exec (.seeds (some (List.replicate 32 0#32))) .reset = .next t') ∧
    (∃ t t', exec (.seedl true none) (stateL 3 true) = .next t ∧ exec (.seedl true none) .reset = .next t') :=
  ⟨⟨_, _, rfl, rfl⟩, _, _, rfl, rfl⟩
theorem witness_SwitchIsOpenUntilTheFirstSample :
    (∃ t, exec (.seedl false (some (List.replicate 624 0#32))) .reset = .next t) ∧
    (stateL 0 false).unitL.Ready ∧ ∃ t, exec .nextl (stateL 0 false) = .next t := by
  refine ⟨?_, stateL_ready (by decide) false, stateL_completes (by decide) false⟩
  rcases execSeedl_cases false (some (List.replicate 624 0#32)) .reset with ⟨_, e⟩ | ⟨_, _, _, e⟩ | ⟨_, _, _, e⟩ <;>
    exact ⟨_, e⟩
theorem witness_UnitsDoNotInteract :
    (ofUnitS .nexts = true ∧ (stateS 3).unitS = { stateL 5 true with unitS := (stateS 3).unitS }.unitS ∧
      ∃ t, exec .nexts (stateS 3) = .next t) ∧
    (ofUnitS .nextl = false ∧ (stateL 3 true).unitL = { stateS 5 with unitL := (stateL 3 true).unitL }.unitL ∧
      ∃ t, exec .nextl (stateL 3 true) = .next t) :=
  ⟨⟨rfl, rfl, stateS_completes (by decide)⟩, rfl, rfl, stateL_completes (by decide) true⟩
theorem witness_CommandsOnDifferentUnitsCommute :
    ofUnitS .nexts = true ∧ ofUnitS (.temper true) = false ∧
    ∃ t₁ t₂, exec .nexts .reset = .next t₁ ∧ exec (.temper true) t₁ = .next t₂ := ⟨rfl, rfl, _, _, rfl, rfl⟩
theorem witness_EveryCommandAnswersOnce :
    Instr.nexts.isCommand = true ∧ (∃ t, exec .nexts (stateS 0) = .next t) ∧
    (∃ t, step (issued [0x40000000#32]) = .next t) ∧ (issued [0x40000000#32]).inputs.head? ≠ some .reset :=
  ⟨rfl, stateS_completes (by decide), ⟨_, rfl⟩, by decide⟩
theorem witness_ErrorsChangeNothing :
    exec .nexts .reset = .next (answered .reset 3#4 0#64) ∧
    step (issued [0x10000000#32]) = .next (answered .reset 1#4 0#64) ∧
    step (issued [0#32]) = .next (answered .reset 5#4 0#64) := ⟨rfl, rfl, rfl⟩
theorem witness_invariant : (stateS 31).Inv ∧ (stateL 623 true).Inv ∧ State.reset.Inv :=
  ⟨stateS_inv (by decide), stateL_inv (by decide) true, by decide⟩
theorem witness_EveryStepKeepsTheInvariant :
    ({ stateS 31 with inputs := [.word 0x38000000#32] } : State).Inv ∧
    ∃ t, step { stateS 31 with inputs := [.word 0x38000000#32] } = .next t := ⟨stateS_inv (by decide), _, rfl⟩
theorem witness_FieldsChangeOnlyAsListed : ∃ t, exec (.temper true) (stateL 0 false) = .next t := ⟨_, rfl⟩
theorem witness_ResetEventDiscardsBothInstances :
    ({ stateS 3 with inputs := [.reset] } : State).inputs = .reset :: [] ∧
    ∃ t, step { stateS 3 with inputs := [.reset] } = .next t ∧ (stateS 3).unitS.constructed = true ∧
      t.unitS.constructed = false := ⟨rfl, _, rfl, rfl, rfl⟩

end Sys2Proof.Tests
end

section
/-! PROOF. O47 and O36: the answers of units not constructed (R35), and the locality of every instruction to its unit
(R20). -/

namespace Sys2Proof.Machine

/-! Units not constructed (R35). -/

theorem execNexts_of_not_constructed {s : State} (h : s.unitS.constructed = false) :
    execNexts s = .next (s.answer ⟨3#4, 0#64⟩) := by
  simp [execNexts, h, Status.code]

theorem execNextl_of_not_constructed {s : State} (h : s.unitL.constructed = false) :
    execNextl s = .next (s.answer ⟨3#4, 0#64⟩) := by
  simp [execNextl, h, Status.code]

theorem execTemper_of_not_constructed (b : Bool) {s : State} (h : s.unitL.constructed = false) :
    execTemper b s = .next (s.answer ⟨3#4, 0#64⟩) := by
  simp [execTemper, h, Status.code]

theorem runCase_of_not_constructed (m : Mode) {s : State} (h : s.unitL.constructed = false) :
    runCase m s = .next (s.answer ⟨3#4, 0#64⟩) := by
  simp [runCase, h, Status.code]

/-! Locality: a meaning that reads one part of the state, and writes that part and the responses only. -/

/-- `s` with another unit S. -/
def State.withUnitS (u : UnitS) (s : State) : State := { s with unitS := u }

/-- `s` with another unit L. -/
def State.withUnitL (u : UnitL) (s : State) : State := { s with unitL := u }

/-- `s` with some responses appended: none (a bare case rule) or one. -/
def State.respond (rs : List Response) (s : State) : State := { s with responses := s.responses ++ rs }

/-- From every state in which `part` reads `u`, the meaning `f` does one and the same thing: it writes one value of
that part (by `put`) and appends one list of responses, or it stops with one fault. -/
def LocalTo {U : Type} (part : State → U) (put : U → State → State) (f : State → Result) (u : U) : Prop :=
  (∃ u' rs, ∀ s, part s = u → f s = .next ((put u' s).respond rs)) ∨
  (∃ r, ∀ s, part s = u → f s = .fault r)

namespace LocalTo

variable {U : Type} {part : State → U} {put : U → State → State} {f : State → Result} {u : U}

/-- An answer that leaves the whole state as it was is local to any part. -/
theorem of_answer (hput : ∀ s, put (part s) s = s) (r : Response)
    (h : ∀ s, part s = u → f s = .next (s.answer r)) : LocalTo part put f u := by
  refine .inl ⟨u, [r], ?_⟩
  rintro s rfl
  rw [h s rfl, hput s]
  rfl

/-- So is what an unanswered word access leads to. -/
theorem of_raiseAccess (hput : ∀ s, put (part s) s = s) (n : UnitName) (e : AccessError)
    (h : ∀ s, part s = u → f s = raiseAccess n e s) : LocalTo part put f u := by
  cases e with
  | indexOutOfRange => exact of_answer hput ⟨6#4, 0#64⟩ h
  | noValue a => exact .inr ⟨.wordHoldsNoValue n a, h⟩

/-- Two states with the same part: where one gives a next state so does the other, with the same new part and the same
new responses, each keeping the rest of its own. -/
theorem next_of_part_eq {s s' t : State} (hf : LocalTo part put f (part s)) (hs : part s = part s')
    (h : f s = .next t) :
    ∃ u' rs, t = (put u' s).respond rs ∧ f s' = .next ((put u' s').respond rs) := by
  rcases hf with ⟨u', rs, hnext⟩ | ⟨r, hfault⟩
  · rw [hnext s rfl] at h
    cases h
    exact ⟨u', rs, rfl, hnext s' hs.symm⟩
  · rw [hfault s rfl] at h
    cases h

end LocalTo

/-! The meanings of unit S. -/

theorem execSeeds_local (seed : Option (List Word)) (u : UnitS) :
    LocalTo State.unitS State.withUnitS (execSeeds seed) u := by
  cases h : checkSeed Config.sR seed with
  | error e => exact .of_answer (fun _ => rfl) ⟨e.code, 0#64⟩ fun s _ => by simp only [execSeeds, h, raise_eq]
  | ok ws => exact .inl ⟨.construct Config.small ws, [⟨0#4, 0#64⟩], fun s _ => by simp only [execSeeds, h]; rfl⟩

theorem execNexts_local (u : UnitS) : LocalTo State.unitS State.withUnitS execNexts u := by
  cases hc : u.constructed with
  | false =>
    exact .of_answer (fun _ => rfl) ⟨3#4, 0#64⟩ fun s hu => execNexts_of_not_constructed (hu ▸ hc)
  | true =>
    cases ha : u.advance Config.small with
    | ok p =>
      exact .inl ⟨p.1, [⟨0#4, sampleBits p.2⟩], fun s hu => by simp only [execNexts, hu, hc, ha]; rfl⟩
    | error e =>
      exact .of_raiseAccess (fun _ => rfl) .S e fun s hu => by simp only [execNexts, hu, hc, ha]; rfl

/-- Every instruction of unit S reads unit S alone, and writes it and the responses alone (R20). -/
theorem exec_local_of_unitS {i : Instr} (hi : ofUnitS i = true) (u : UnitS) :
    LocalTo State.unitS State.withUnitS (exec i) u := by
  rcases caseRule_or i with ⟨seed, rfl⟩ | ⟨b, seed, rfl⟩ | ⟨b, rfl⟩ | rfl | rfl | ⟨m, rfl⟩
  · exact execSeeds_local seed u
  · cases hi
  · cases hi
  · exact execNexts_local u
  · cases hi
  · cases m <;> cases hi

/-! The meanings of unit L. -/

theorem execSeedl_local (b : Bool) (seed : Option (List Word)) (u : UnitL) :
    LocalTo State.unitL State.withUnitL (execSeedl b seed) u := by
  cases h : checkSeed Config.lR seed with
  | error e => exact .of_answer (fun _ => rfl) ⟨e.code, 0#64⟩ fun s _ => by simp only [execSeedl, h, raise_eq]
  | ok ws => exact .inl ⟨.construct b ws, [⟨0#4, 0#64⟩], fun s _ => by simp only [execSeedl, h]; rfl⟩

theorem execTemper_local (b : Bool) (u : UnitL) : LocalTo State.unitL State.withUnitL (execTemper b) u := by
  cases hc : u.constructed with
  | false =>
    exact .of_answer (fun _ => rfl) ⟨3#4, 0#64⟩ fun s hu => execTemper_of_not_constructed b (hu ▸ hc)
  | true =>
    cases hs : u.started with
    | true =>
      exact .of_answer (fun _ => rfl) ⟨4#4, 0#64⟩ fun s hu => by simp only [execTemper, hu, hc, hs]; rfl
    | false =>
      exact .inl ⟨u.setTempering b, [⟨0#4, 0#64⟩], fun s hu => by simp only [execTemper, hu, hc, hs]; rfl⟩

theorem execNextl_local (u : UnitL) : LocalTo State.unitL State.withUnitL execNextl u := by
  cases hc : u.constructed with
  | false =>
    exact .of_answer (fun _ => rfl) ⟨3#4, 0#64⟩ fun s hu => execNextl_of_not_constructed (hu ▸ hc)
  | true =>
    cases ha : u.advance Config.large u.mode with
    | ok p =>
      exact .inl ⟨p.1.markStarted, [⟨0#4, sampleBits (outputWord u.tempering p.2)⟩],
        fun s hu => by simp only [execNextl, hu, hc, ha]; rfl⟩
    | error e =>
      exact .of_raiseAccess (fun _ => rfl) .L e fun s hu => by simp only [execNextl, hu, hc, ha]; rfl

theorem runCase_local (m : Mode) (u : UnitL) : LocalTo State.unitL State.withUnitL (runCase m) u := by
  cases hc : u.constructed with
  | false =>
    exact .of_answer (fun _ => rfl) ⟨3#4, 0#64⟩ fun s hu => runCase_of_not_constructed m (hu ▸ hc)
  | true =>
    cases ha : u.advance Config.large m with
    | ok p =>
      exact .inl ⟨p.1, [], fun s hu => by simp [runCase, hu, hc, ha, State.respond, State.withUnitL]⟩
    | error e =>
      exact .of_raiseAccess (fun _ => rfl) .L e fun s hu => by simp only [runCase, hu, hc, ha]; rfl

/-- Every instruction of unit L reads unit L alone, and writes it and the responses alone (R20). -/
theorem exec_local_of_unitL {i : Instr} (hi : ofUnitS i = false) (u : UnitL) :
    LocalTo State.unitL State.withUnitL (exec i) u := by
  rcases caseRule_or i with ⟨seed, rfl⟩ | ⟨b, seed, rfl⟩ | ⟨b, rfl⟩ | rfl | rfl | ⟨m, rfl⟩
  · cases hi
  · exact execSeedl_local b seed u
  · exact execTemper_local b u
  · cases hi
  · exact execNextl_local u
  · rw [funext (exec_caseRule m)]
    exact runCase_local m u

end Sys2Proof.Machine

open Sys2Proof Sys2Proof.Machine Sys2Proof.Claims

/-- Settles O36: every instruction is local to its own unit (`exec_local_of_unitS`, `exec_local_of_unitL`), so that two
states which agree on that unit go the same way. -/
theorem unitsDoNotInteract : Obligations.UnitsDoNotInteract := by
  unfold Obligations.UnitsDoNotInteract
  constructor
  · intro i s s' t hi hu h
    obtain ⟨u, rs, rfl, h'⟩ := (exec_local_of_unitS hi s.unitS).next_of_part_eq hu h
    exact ⟨rfl, _, rs, h', rfl, rfl, rfl⟩
  · intro i s s' t hi hu h
    obtain ⟨u, rs, rfl, h'⟩ := (exec_local_of_unitL hi s.unitL).next_of_part_eq hu h
    exact ⟨rfl, _, rs, h', rfl, rfl, rfl⟩

/-- Settles O47: the fields are those of `UnitS.reset` and `UnitL.reset`, and neither unit is constructed. -/
theorem resetLeavesNoInstance : Obligations.ResetLeavesNoInstance := by
  unfold Obligations.ResetLeavesNoInstance
  exact ⟨Memory.read_nil, Memory.read_nil, rfl, rfl, rfl, rfl, rfl, rfl, rfl,
    execNexts_of_not_constructed rfl, execNextl_of_not_constructed rfl, fun b => execTemper_of_not_constructed b rfl⟩

end

section
/-! PROOF. O48: the bounded word accesses of R51, each outcome as an equivalence. -/

namespace Sys2Proof.Machine

theorem memRead_eq_ok_iff {R : Nat} {m : Memory} {a : Int} {v : Word} :
    memRead R m a = .ok v ↔ 0 ≤ a ∧ a < R ∧ m.read a.toNat = some v := by
  constructor
  · intro h
    obtain ⟨n, rfl, hn, hv⟩ := memRead_eq_ok h
    exact ⟨n.cast_nonneg, Int.ofNat_lt.2 hn, hv⟩
  · rintro ⟨h0, hR, hv⟩
    lift a to Nat using h0
    exact memRead_of_mem (Int.ofNat_lt.1 hR) hv

/-- Inside the space a read that does not answer is one of a word that holds no value (R231), never IndexOutOfRange. -/
theorem memRead_eq_indexOutOfRange_iff {R : Nat} {m : Memory} {a : Int} :
    memRead R m a = .error .indexOutOfRange ↔ ¬ (0 ≤ a ∧ a < R) := by
  refine ⟨fun h hr => ?_, memRead_outOfRange m⟩
  rw [memRead, if_pos hr] at h
  split at h <;> cases h

theorem memWrite_outOfRange {R : Nat} (m : Memory) {a : Int} (v : Word) (h : ¬ (0 ≤ a ∧ a < R)) :
    memWrite R m a v = .error .indexOutOfRange := by
  rw [memWrite, if_neg h]

/-- A write in range replaces the word at its address, and that word alone. -/
theorem memWrite_replaces_word {R : Nat} (m : Memory) {a : Int} (v : Word) (h : 0 ≤ a ∧ a < R) :
    ∃ m', memWrite R m a v = .ok m' ∧ m'.read a.toNat = some v ∧
      ∀ b : Nat, (b : Int) ≠ a → m'.read b = m.read b := by
  obtain ⟨h0, hR⟩ := h
  lift a to Nat using h0
  exact ⟨m.write a v, memWrite_of_lt m v (Int.ofNat_lt.1 hR), m.read_write_same a v,
    fun b hb => m.read_write_other v (Int.ofNat_inj.not.1 hb)⟩

end Sys2Proof.Machine

open Sys2Proof.Machine

/-- Settles O48: the outcomes of a read by the two equivalences above; a write in range by `memWrite_replaces_word`,
and one that answers is in range (`memWrite_eq_ok`). -/
theorem wordAccessIsBounded : Obligations.WordAccessIsBounded := by
  unfold Obligations.WordAccessIsBounded
  intro R m a
  refine ⟨fun v => memRead_eq_ok_iff, memRead_eq_indexOutOfRange_iff,
    fun v => ⟨?_, memWrite_replaces_word m v⟩, fun v => ⟨fun h => (memWrite_eq_error h).2, memWrite_outOfRange m v⟩⟩
  rintro ⟨m', hw, -, -⟩
  obtain ⟨n, rfl, hn, -⟩ := memWrite_eq_ok hw
  exact ⟨n.cast_nonneg, Int.ofNat_lt.2 hn⟩

end

section
/-! PROOF. O3 and O4: the fields of a command word as numbers and under a mask, and the words that no command has. -/

namespace Sys2Proof

/-! The fields as numbers (R70, R71). -/

theorem toNat_opField (c : Word) : (opField c).toNat = c.toNat / 2 ^ 28 := by
  rw [opField, BitVec.extractLsb'_toNat, Nat.shiftRight_eq_div_pow, Nat.mod_eq_of_lt]
  omega

theorem toNat_zeroField (c : Word) : (zeroField c).toNat = c.toNat / 2 ^ 16 % 2 ^ 10 := by
  rw [zeroField, BitVec.extractLsb'_toNat, Nat.shiftRight_eq_div_pow]

theorem toNat_nField (c : Word) : (nField c).toNat = c.toNat % 2 ^ 16 := by
  rw [nField, BitVec.extractLsb'_toNat, Nat.shiftRight_zero]

theorem zeroField_eq_zero_iff (c : Word) : zeroField c = 0#10 ↔ c.toNat / 2 ^ 16 % 2 ^ 10 = 0 := by
  rw [← toNat_zeroField, ← BitVec.toNat_inj, BitVec.toNat_zero]

theorem nField_eq_zero_iff (c : Word) : nField c = 0#16 ↔ c.toNat % 2 ^ 16 = 0 := by
  rw [← toNat_nField, ← BitVec.toNat_inj, BitVec.toNat_zero]

/-! The fields under a mask (R72). -/

theorem opField_and (a b : Word) : opField (a &&& b) = opField a &&& opField b := BitVec.extractLsb'_and

theorem tField_and (a b : Word) : tField (a &&& b) = (tField a && tField b) := BitVec.getLsbD_and

theorem pField_and (a b : Word) : pField (a &&& b) = (pField a && pField b) := BitVec.getLsbD_and

theorem zeroField_and (a b : Word) : zeroField (a &&& b) = zeroField a &&& zeroField b := BitVec.extractLsb'_and

theorem nField_and (a b : Word) : nField (a &&& b) = nField a &&& nField b := BitVec.extractLsb'_and

/-- A mask that covers `op` and the reserved bits selects the command words with that `op` whose other fields are 0
wherever the mask covers them. -/
theorem and_mask_eq_iff {c m : Word} {op : BitVec 4} (hop : opField m = BitVec.allOnes 4)
    (hzero : zeroField m = BitVec.allOnes 10) :
    c &&& m = commandWord op false false 0#16 ↔
      c = commandWord op (tField c) (pField c) (nField c) ∧
        (tField c && tField m) = false ∧ (pField c && pField m) = false ∧ nField c &&& nField m = 0#16 := by
  have hopc : opField (c &&& m) = opField c := by rw [opField_and, hop, BitVec.and_allOnes]
  have hzeroc : zeroField (c &&& m) = zeroField c := by rw [zeroField_and, hzero, BitVec.and_allOnes]
  rw [← tField_and, ← pField_and, ← nField_and]
  constructor
  · intro h
    rw [h, opField_commandWord] at hopc
    rw [h, zeroField_commandWord] at hzeroc
    rw [h, hopc]
    exact ⟨(commandWord_fields hzeroc.symm).symm, by simp⟩
  · rintro ⟨hc, ht, hp, hn⟩
    have hz : zeroField c = 0#10 := by rw [hc, zeroField_commandWord]
    have ho : opField c = op := by rw [hc, opField_commandWord]
    rw [← commandWord_fields (hzeroc.trans hz), hopc, ho, ht, hp, hn]

/-! The five rows of the command set (R72), each as the form of the words that it selects. -/

theorem selects_seeds_iff (c : Word) :
    c &&& 0xFBFF0000#32 = 0x10000000#32 ↔ c = commandWord 1#4 false (pField c) (nField c) := by
  refine (and_mask_eq_iff (op := 1#4) (by decide) (by decide)).trans ?_
  rw [show tField 0xFBFF0000#32 = true by decide, show pField 0xFBFF0000#32 = false by decide,
    show nField 0xFBFF0000#32 = 0#16 by decide]
  constructor
  · rintro ⟨hc, ht, -, -⟩
    rwa [(Bool.and_true _).symm.trans ht] at hc
  · intro hc
    have ht : tField c = false := by rw [hc, tField_commandWord]
    exact ⟨by rwa [ht], by simp [ht]⟩

theorem selects_seedl_iff (c : Word) :
    c &&& 0xF3FF0000#32 = 0x20000000#32 ↔ c = commandWord 2#4 (tField c) (pField c) (nField c) := by
  refine (and_mask_eq_iff (op := 2#4) (by decide) (by decide)).trans ?_
  rw [show tField 0xF3FF0000#32 = false by decide, show pField 0xF3FF0000#32 = false by decide,
    show nField 0xF3FF0000#32 = 0#16 by decide]
  simp

theorem selects_temper_iff (c : Word) :
    c &&& 0xF7FFFFFF#32 = 0x30000000#32 ↔ c = commandWord 3#4 (tField c) false 0#16 := by
  refine (and_mask_eq_iff (op := 3#4) (by decide) (by decide)).trans ?_
  rw [show tField 0xF7FFFFFF#32 = false by decide, show pField 0xF7FFFFFF#32 = true by decide,
    show nField 0xF7FFFFFF#32 = BitVec.allOnes 16 by decide, BitVec.and_allOnes]
  constructor
  · rintro ⟨hc, -, hp, hn⟩
    rwa [(Bool.and_true _).symm.trans hp, hn] at hc
  · intro hc
    have hp : pField c = false := by rw [hc, pField_commandWord]
    have hn : nField c = 0#16 := by rw [hc, nField_commandWord]
    exact ⟨by rwa [hp, hn], by simp [hp, hn]⟩

/-- NEXTS and NEXTL have no operand: the mask covers the whole word. -/
theorem and_fullMask_eq_iff (c k : Word) : c &&& 0xFFFFFFFF#32 = k ↔ c = k := by
  rw [show 0xFFFFFFFF#32 = BitVec.allOnes 32 from rfl, BitVec.and_allOnes]

/-- What a construction word decodes to, on `n` as a number. -/
theorem map_seedCount (f : Option Nat → Header) (p : Bool) (n : BitVec 16) :
    (seedCount p n).map f = if p then some (f (some n.toNat)) else if n.toNat = 0 then some (f none) else none := by
  have hn : n = 0#16 ↔ n.toNat = 0 := BitVec.toNat_inj.symm
  simp only [seedCount, hn]
  split_ifs <;> rfl

/-- A legal command word is selected by the row of its command. -/
theorem row_of_decodeHeader {c : Word} {h : Header} (hd : decodeHeader c = some h) :
    c &&& 0xFBFF0000#32 = 0x10000000#32 ∨ c &&& 0xF3FF0000#32 = 0x20000000#32 ∨
    c &&& 0xF7FFFFFF#32 = 0x30000000#32 ∨ c &&& 0xFFFFFFFF#32 = 0x40000000#32 ∨
    c &&& 0xFFFFFFFF#32 = 0x50000000#32 := by
  rw [selects_seeds_iff, selects_seedl_iff, selects_temper_iff, and_fullMask_eq_iff, and_fullMask_eq_iff]
  obtain ⟨rfl, -⟩ := eq_word_of_decodeHeader hd
  cases h with
  | seeds count => left; cases count <;> simp [Header.word]
  | seedl t count => right; left; cases count <;> simp [Header.word]
  | temper t => right; right; left; simp [Header.word]
  | nexts => right; right; right; left; rfl
  | nextl => right; right; right; right; rfl

/-! The illegal command words (R77). -/

theorem decode_eq_illegal_iff (c : Word) (rest : List Word) :
    decode (c :: rest) = .illegal ↔ decodeHeader c = none := by
  rw [decode]
  cases decodeHeader c with
  | none => simp
  | some h => by_cases hl : h.payloadLength ≤ rest.length <;> simp [hl]

/-- Reserved bits that are not 0 make a word illegal, whatever its other fields (R77 case 2, R81). -/
theorem decodeHeader_of_zeroField_ne {c : Word} (hz : zeroField c ≠ 0#10) : decodeHeader c = none := by
  rw [decodeHeader, if_pos hz]

/-- A construction is illegal when it supplies no array and its count is not 0 (R77 case 5). -/
theorem seedCount_eq_none_iff (p : Bool) (n : BitVec 16) : seedCount p n = none ↔ n ≠ 0#16 ∧ p = false := by
  cases p <;> simp [seedCount]

end Sys2Proof

namespace Sys2Proof.Claims

/-- The decoder rejects exactly the words of R77. -/
theorem decodeHeader_eq_none_iff (c : Word) : decodeHeader c = none ↔ IllegalByR77 c := by
  have ht : c.getLsbD 27 = tField c := rfl
  have hp : c.getLsbD 26 = pField c := rfl
  simp only [IllegalByR77, ← toNat_opField, ne_eq, ← zeroField_eq_zero_iff, ← nField_eq_zero_iff, ht, hp]
  by_cases hz : zeroField c = 0#10
  · have hd := decodeHeader_commandWord (opField c) (tField c) (pField c) (nField c)
    rw [commandWord_fields hz] at hd
    rw [hd]
    generalize (opField c).toNat = op
    match op with
    | 0 => simp
    | 1 => cases tField c <;> simp [hz, seedCount_eq_none_iff]
    | 2 => simp [hz, seedCount_eq_none_iff]
    | 3 => cases pField c <;> simp [hz]
    | 4 | 5 => cases tField c <;> cases pField c <;> simp [hz]
    | op + 6 => simp
  · exact iff_of_true (decodeHeader_of_zeroField_ne hz) (.inr (.inl hz))

end Sys2Proof.Claims

namespace Sys2Proof.Machine

/-- A step on an illegal command word takes that word alone and answers IllegalCommand (R77, R205). -/
theorem step_of_illegal {s : State} {c : Word} {rest : List HostInput} (hs : s.inputs = .word c :: rest)
    (hc : decodeHeader c = none) : step s = .next ((s.consume 1).answer ⟨5#4, 0#64⟩) := by
  have hf : fetch s.inputs = .illegal := by
    rw [hs, fetch, (decode_eq_illegal_iff c _).2 hc]
  rw [step, hf]
  rfl

end Sys2Proof.Machine

open Sys2Proof Sys2Proof.Machine Sys2Proof.Claims

/-- Settles O3: the decoder rejects exactly the words of R77 (`decodeHeader_eq_none_iff`), and a step on such a word is
`step_of_illegal`. -/
theorem illegalCommandWords : Obligations.IllegalCommandWords := by
  unfold Obligations.IllegalCommandWords
  refine ⟨fun c rest => (decode_eq_illegal_iff c rest).trans (decodeHeader_eq_none_iff c), ?_⟩
  intro s c rest hs hc
  have hstep := step_of_illegal hs ((decodeHeader_eq_none_iff c).2 hc)
  rwa [State.consume, hs] at hstep

/-- Settles O4: each row selects the command words of one form (`selects_seeds_iff` and the others), and what such a
word decodes to is `decodeHeader_commandWord`. -/
theorem commandMatchAndMask : Obligations.CommandMatchAndMask := by
  unfold Obligations.CommandMatchAndMask
  intro c t p n
  have hn : (nField c).toNat = n := toNat_nField c
  rw [← hn]
  refine ⟨fun h => ?seeds, fun h => ?seedl, fun h => ?temper, fun h => ?nexts, fun h => ?nextl, fun h => ?legal⟩
  case seeds =>
    calc decodeHeader c
      _ = decodeHeader (commandWord 1#4 false p (nField c)) := congrArg _ ((selects_seeds_iff c).1 h)
      _ = (seedCount p (nField c)).map .seeds := decodeHeader_commandWord ..
      _ = _ := map_seedCount ..
  case seedl =>
    calc decodeHeader c
      _ = decodeHeader (commandWord 2#4 t p (nField c)) := congrArg _ ((selects_seedl_iff c).1 h)
      _ = (seedCount p (nField c)).map (.seedl t) := decodeHeader_commandWord ..
      _ = _ := map_seedCount ..
  case temper =>
    exact (congrArg _ ((selects_temper_iff c).1 h)).trans (decodeHeader_word (h := .temper t) Nat.ofNat_pos)
  case nexts => exact (congrArg _ ((and_fullMask_eq_iff c _).1 h)).trans (decodeHeader_word (h := .nexts) Nat.ofNat_pos)
  case nextl => exact (congrArg _ ((and_fullMask_eq_iff c _).1 h)).trans (decodeHeader_word (h := .nextl) Nat.ofNat_pos)
  case legal =>
    obtain ⟨_, hd⟩ := Option.ne_none_iff_exists'.1 h
    exact row_of_decodeHeader hd

end

section
/-! PROOF. O38: the one response of a command (R74). -/

namespace Sys2Proof.Machine

/-- The codes in use are 0 to 6 (R201). -/
theorem Status.code_le_six (e : Status) : e.code.toNat ≤ 6 := by
  cases e <;> decide

/-- Only success has the code 0 (R201). -/
theorem Status.code_eq_zero_iff (e : Status) : e.code = 0#4 ↔ e = .ok := by
  cases e <;> decide

/-- What R74 says of a response to the command `i`: its status is one of R201's, a sample comes only with OK from NEXTS
or NEXTL, and their OK carries the pattern of a word. -/
structure Answers (i : Instr) (r : Response) : Prop where
  status_code : ∃ e : Status, r.status = e.code
  sample_of_draw : r.sample ≠ 0#64 → r.status = 0#4 ∧ (i = .nexts ∨ i = .nextl)
  draw_has_word : r.status = 0#4 → i = .nexts ∨ i = .nextl → ∃ y, r.sample = sampleBits y

namespace Answers

theorem error (i : Instr) {e : Status} (he : e ≠ .ok) : Answers i ⟨e.code, 0#64⟩ where
  status_code := ⟨e, rfl⟩
  sample_of_draw h := absurd rfl h
  draw_has_word h := absurd ((Status.code_eq_zero_iff e).1 h) he

theorem okWithoutSample {i : Instr} (hi : ¬ (i = .nexts ∨ i = .nextl)) : Answers i ⟨0#4, 0#64⟩ where
  status_code := ⟨.ok, rfl⟩
  sample_of_draw h := absurd rfl h
  draw_has_word _ h := absurd h hi

theorem okWithSample {i : Instr} (hi : i = .nexts ∨ i = .nextl) (y : Word) : Answers i ⟨0#4, sampleBits y⟩ where
  status_code := ⟨.ok, rfl⟩
  sample_of_draw _ := ⟨rfl, hi⟩
  draw_has_word _ _ := ⟨y, rfl⟩

theorem status_le_six {i : Instr} {r : Response} (h : Answers i r) : r.status.toNat ≤ 6 := by
  obtain ⟨e, he⟩ := h.status_code
  exact he ▸ e.code_le_six

end Answers

/-- A command that gives a next state appends one response, of the form R74 gives it. -/
theorem command_answers_once {i : Instr} {s t : State} (hi : i.isCommand = true) (h : exec i s = .next t) :
    ∃ r, t.responses = s.responses ++ [r] ∧ Answers i r := by
  rcases exec_next_cases h with ⟨e, he, -, rfl⟩ | ⟨ws, rfl, -, rfl⟩ | ⟨b, ws, rfl, -, rfl⟩ | ⟨b, rfl, -, -, rfl⟩ |
    ⟨rfl, -, x, -, rfl⟩ | ⟨rfl, -, x, -, rfl⟩ | ⟨m, rfl, -⟩
  · exact ⟨_, rfl, .error i he⟩
  · exact ⟨_, rfl, .okWithoutSample (by simp)⟩
  · exact ⟨_, rfl, .okWithoutSample (by simp)⟩
  · exact ⟨_, rfl, .okWithoutSample (by simp)⟩
  · exact ⟨_, rfl, .okWithSample (.inl rfl) _⟩
  · exact ⟨_, rfl, .okWithSample (.inr rfl) _⟩
  · cases m <;> cases hi

/-- A step that is no reset appends one response, with a status in use. -/
theorem step_answers_once {s t : State} (h : step s = .next t) (hs : s.inputs.head? ≠ some .reset) :
    ∃ r : Response, t.responses = s.responses ++ [r] ∧ r.status.toNat ≤ 6 := by
  rcases step_next_cases h with ⟨rest, hr, -⟩ | ⟨-, rfl⟩ | ⟨i, used, -, hi, he⟩
  · exact absurd (congrArg List.head? hr) hs
  · exact ⟨_, rfl, Status.illegalCommand.code_le_six⟩
  · obtain ⟨r, hr, ha⟩ := command_answers_once hi he
    exact ⟨r, hr, ha.status_le_six⟩

end Sys2Proof.Machine

open Sys2Proof Sys2Proof.Machine

/-- Settles O38: `command_answers_once` for a command, `step_answers_once` for a step. -/
theorem everyCommandAnswersOnce : Obligations.EveryCommandAnswersOnce := by
  unfold Obligations.EveryCommandAnswersOnce
  refine ⟨fun i s t hi h => ?_, fun s t => step_answers_once⟩
  obtain ⟨r, hr, ha⟩ := command_answers_once hi h
  exact ⟨r, hr, ha.sample_of_draw, ha.draw_has_word⟩

end

section
/-! PROOF. O10: the plain logical shift (R102). -/

namespace Sys2Proof.Machine

/-- R102 bit by bit: bit `i` of the result is bit `t + i` of `v`. -/
@[simp] theorem getLsbD_shiftRightOnly (t : ShiftAmount) (v : Word) (i : Nat) :
    (shiftRightOnly t v).getLsbD i = v.getLsbD (t.val + i) :=
  BitVec.getLsbD_ushiftRight v t.val i

theorem shiftRightOnly_zero_amount (v : Word) : shiftRightOnly 0 v = v :=
  BitVec.ushiftRight_zero v

/-- The bits shifted in at the top are 0 (R102). -/
theorem getLsbD_shiftRightOnly_of_ge {t : ShiftAmount} (v : Word) {i : Nat} (hi : 32 - t.val ≤ i) :
    (shiftRightOnly t v).getLsbD i = false := by
  have hbeyond : 32 ≤ t.val + i := Nat.sub_le_iff_le_add'.1 hi
  rw [getLsbD_shiftRightOnly, BitVec.getLsbD_of_ge v _ hbeyond]

/-- Words that agree from bit `t` up have the same result: the low `t` bits are lost (R102). -/
theorem shiftRightOnly_congr {t : ShiftAmount} {v v' : Word}
    (h : ∀ i, t.val ≤ i → v.getLsbD i = v'.getLsbD i) : shiftRightOnly t v = shiftRightOnly t v' := by
  refine BitVec.eq_of_getLsbD_eq fun i _ => ?_
  rw [getLsbD_shiftRightOnly, getLsbD_shiftRightOnly, h _ (Nat.le_add_right ..)]

/-- A shift by at least 1 sends 0 and 1, which differ in bit 0 alone, to one result. -/
theorem not_injective_shiftRightOnly {t : ShiftAmount} (ht : t ≠ 0) : ¬ Function.Injective (shiftRightOnly t) := by
  have hpos : 0 < t.val := Fin.pos_iff_ne_zero.2 ht
  have hcollide : shiftRightOnly t 0#32 = shiftRightOnly t 1#32 := by
    refine shiftRightOnly_congr fun i hi => ?_
    have hi0 : i ≠ 0 := by omega
    simp [hi0]
  intro hinj
  exact absurd (hinj hcollide) (by decide)

end Sys2Proof.Machine

open Sys2Proof Sys2Proof.Machine

/-- Settles O10: the top and the low bits are read off `getLsbD_shiftRightOnly`, and losing bit 0 is what refutes
injectivity. -/
theorem shiftRightOnlyLosesTheLowBits : Obligations.ShiftRightOnlyLosesTheLowBits := by
  unfold Obligations.ShiftRightOnlyLosesTheLowBits
  refine ⟨fun t v => rfl, shiftRightOnly_zero_amount, fun t v i hi _ => getLsbD_shiftRightOnly_of_ge v hi,
    fun t v v' => shiftRightOnly_congr, fun t ht hbij => not_injective_shiftRightOnly ht hbij.injective, ?value⟩
  case value => decide

end

section
/-! PROOF. O15: the step of NEXTS at an index in the array (R111, R112). -/

namespace Sys2Proof.Machine

open Sys2Proof.Claims

/-- The words a step at index `i` writes are those of R111; below 32 the current address is `i` itself. -/
theorem smallNewWords_smallTapsOf (w : Nat → Word) {i : Nat} (hi : i < Config.sR) :
    smallNewWords Config.small (smallTapsOf Config.small w i) = ⟨smallNewV1At w i, smallNewV0At w i⟩ := by
  rw [smallTapsOf, Nat.mod_eq_of_lt hi]
  rfl

/-- The unit and the output word after a step on an array that holds `w` (R112). -/
theorem UnitS.after_smallTapsOf (u : UnitS) (w : Nat → Word) (hi : u.index < Config.sR) :
    u.after Config.small (smallTapsOf Config.small w u.index) =
      ({ u with
          words := (u.words.write u.index (smallNewV1At w u.index)).write ((u.index + 31) % 32)
            (smallNewV0At w u.index)
          index := (u.index + 31) % 32 },
        smallNewV0At w u.index) := by
  rw [UnitS.after, smallNewWords_smallTapsOf w hi, Nat.mod_eq_of_lt hi]

end Sys2Proof.Machine

open Sys2Proof Sys2Proof.Machine Sys2Proof.Claims

/-- Settles O15: in a constructed unit NEXTS answers with the unit and the word of its step (`execNexts_of_holds`), and these
are R111's (`UnitS.after_smallTapsOf`, `smallNewWords_smallTapsOf`). -/
theorem nextsComputesTheRecurrence : Obligations.NextsComputesTheRecurrence := by
  unfold Obligations.NextsComputesTheRecurrence
  refine ⟨fun s w hc hi hw => ?constructed, fun s => execNexts_of_not_constructed, ?word⟩
  case constructed =>
    have hstep := execNexts_of_holds hc hw
    rwa [UnitS.after_smallTapsOf s.unitS w hi, smallNewWords_smallTapsOf w hi] at hstep
  case word => rfl

end

section
/-! PROOF. O22 and O24: NEXTL as the case rule of its mode (R145), and the transition table (R143). -/

namespace Sys2Proof.Machine

/-- An address form fits the array only on the region of its mode (R131, R32). -/
theorem region_of_inRange {m : Mode} {i : Nat} (h : (largeAddrs m i).InRange) : i < Config.lR ∧ regionOf i = m := by
  obtain ⟨⟨-, h0⟩, h1, h2, h3, hR1, hR2⟩ := h
  rw [regionOf_eq_iff]
  cases m <;> simp only [largeAddrs, Config.lR, Config.lM1, Config.lM2, Config.lM3, Config.lC1, Config.lC2,
    Config.lC3] at * <;> omega

/-- A step in a mode that is not the region of the index leaves the array and is refused (R51). -/
theorem UnitL.advance_of_offRegion (c : Config.LargeParams) {m : Mode} {u : UnitL} {w : Nat → Word}
    (hw : u.words.Holds Config.lR w) (hoff : Config.lR ≤ u.index ∨ m ≠ regionOf u.index) :
    u.advance c m = .error .indexOutOfRange := by
  have hread : readLargeTaps u.words (largeAddrs m u.index) = .error .indexOutOfRange := by
    refine readLargeTaps_outOfRange hw fun hin => ?_
    obtain ⟨hi, hm⟩ := region_of_inRange hin
    exact hoff.elim (Nat.not_le_of_lt hi) (· hm.symm)
  rcases UnitL.advance_cases c m u with ⟨x, hx, -⟩ | ⟨e, he, hadv⟩
  · rw [hread] at hx
    cases hx
  · rw [hread] at he
    cases he
    exact hadv

/-- NEXTL off the region of its mode answers IndexOutOfRange and changes nothing (R203, R205). -/
theorem execNextl_of_offRegion {s : State} {w : Nat → Word} (hc : s.unitL.constructed = true)
    (hw : s.unitL.words.Holds Config.lR w)
    (hoff : Config.lR ≤ s.unitL.index ∨ s.unitL.mode ≠ regionOf s.unitL.index) :
    execNextl s = .next (s.answer ⟨6#4, 0#64⟩) := by
  simp only [execNextl, hc, UnitL.advance_of_offRegion Config.large hw hoff]
  rfl

/-- The word at the new index is the step's untempered `newV0` (R145). -/
theorem UnitL.after_read_index (c : Config.LargeParams) {u : UnitL} (hi : u.index < Config.lR) (x : LargeTaps) :
    (u.after c (regionOf u.index) x).1.words.read (u.after c (regionOf u.index) x).1.index =
      some (largeNewWords c x).newV0 := by
  rw [UnitL.after_modular c hi]
  exact Memory.read_write_same _ _ _

/-- Outside `Case1` and `Case2` a step on its region counts the index down by one (R143). -/
theorem nextIndex_add_one {m : Mode} {i : Nat} (hm : regionOf i = m) (h1 : m ≠ .case1) (h2 : m ≠ .case2) :
    nextIndex m i + 1 = i := by
  have hregion := (regionOf_eq_iff i m).1 hm
  cases m with
  | case1 => exact absurd rfl h1
  | case2 => exact absurd rfl h2
  | case3 | case4 | case5 | case6 => simp only [nextIndex] at hregion ⊢; omega

/-- On a legal instance NEXTL moves the control state by `nextIndex` and `nextMode`, the mode from the NEW index
(R143). -/
theorem execNextl_control {s : State} (h : s.unitL.Ready) :
    ∃ t, execNextl s = .next t ∧ t.unitL.index = nextIndex s.unitL.mode s.unitL.index ∧
      t.unitL.mode = nextMode s.unitL.mode t.unitL.index := by
  obtain ⟨w, hw⟩ := UnitL.exists_holds h
  have ⟨_, _, hmode, _⟩ := h
  rw [hmode]
  exact ⟨_, execNextl_of_holds h hw, rfl, rfl⟩

end Sys2Proof.Machine

open Sys2Proof Sys2Proof.Machine Sys2Proof.Claims

/-- Settles O22: on a legal instance the case rule and NEXTL make the same step (`runCase_of_holds`,
`execNextl_of_holds`), which leaves its output word at the new index (`UnitL.after_read_index`). -/
theorem nextlRunsTheCaseOfItsMode : Obligations.NextlRunsTheCaseOfItsMode := by
  unfold Obligations.NextlRunsTheCaseOfItsMode
  refine ⟨fun s h => ?ready, fun s => execNextl_of_not_constructed, fun s w => execNextl_of_offRegion, ?word⟩
  case ready =>
    obtain ⟨w, hw⟩ := UnitL.exists_holds h
    have ⟨hc, hi, hmode, _⟩ := h
    have hcase := runCase_of_holds hc hi hw
    rw [hmode, exec_caseRule]
    refine ⟨_, _, hcase, UnitL.after_read_index _ hi _, ?flags, execNextl_of_holds h hw⟩
    case flags => rw [← hc]; rfl
  case word => rfl

/-- Settles O24: the rows are those of `nextIndex` and `nextMode` (`execNextl_control`), and `i − 1` is a predecessor
on the regions that use it (`nextIndex_add_one`). -/
theorem modeTransitionTable : Obligations.ModeTransitionTable := by
  unfold Obligations.ModeTransitionTable
  intro s h
  obtain ⟨t, hstep, hindex, hmode⟩ := execNextl_control h
  have ⟨_, _, hregion, _⟩ := h
  refine ⟨t, hstep, ?_⟩
  generalize s.unitL.mode = m at hindex hmode hregion
  cases m with
  | case1 | case2 => rw [hindex] at hmode; exact ⟨hindex, hmode⟩
  | case3 | case4 | case5 | case6 =>
    exact ⟨hindex ▸ nextIndex_add_one hregion.symm nofun nofun, hmode⟩

end

section
/-! PROOF. O13: the binary64 pattern of a sample by the highest set bit of its word (R173). -/

namespace Sys2Proof.Machine

/-- With highest set bit `p`, a word's pattern has sign bit 0, exponent field `991 + p`, and below it the bits under
the highest one, shifted to the top of the fraction field (R173). -/
theorem sampleBits_fields {y : Word} {p : Nat} (hp : 2 ^ p ≤ y.toNat) (hp' : y.toNat < 2 ^ (p + 1)) :
    p < 32 ∧ (sampleBits y).toNat = (991 + p) * 2 ^ 52 + (y.toNat - 2 ^ p) * 2 ^ (52 - p) ∧
      (sampleBits y).getLsbD 63 = false ∧ ((sampleBits y).extractLsb' 52 11).toNat = 991 + p ∧
      ((sampleBits y).extractLsb' 0 52).toNat = (y.toNat - 2 ^ p) * 2 ^ (52 - p) := by
  rcases sampleBits_cases y with ⟨rfl, -⟩ | ⟨q, hq, hle, hlt, hbits⟩
  · exact absurd hp (Nat.not_le_of_lt (Nat.two_pow_pos p))
  · obtain rfl := highestBit_unique hp hp' hle hlt
    rw [hbits]
    exact ⟨hq, positivePattern_fields (991 + p) _ (by omega) (fraction_lt hq hlt)⟩

/-- The fraction field with its hidden bit is the word shifted up to bit 52. -/
theorem significand_eq {a p : Nat} (hp : p < 32) (ha : 2 ^ p ≤ a) :
    2 ^ 52 + (a - 2 ^ p) * 2 ^ (52 - p) = a * 2 ^ (52 - p) := by
  have hidden : 2 ^ 52 = 2 ^ p * 2 ^ (52 - p) := by rw [← Nat.pow_add, Nat.add_sub_cancel' (by omega)]
  rw [hidden, ← Nat.add_mul, Nat.add_sub_cancel' ha]

/-- A pattern that is neither negative, subnormal, infinite nor NaN denotes its significand times a power of two. -/
theorem binary64Value_of_normal {b : BitVec 64} {e f : Nat} (hsign : b.getLsbD 63 = false)
    (hexp : (b.extractLsb' 52 11).toNat = e) (hfrac : (b.extractLsb' 0 52).toNat = f) (hlo : e ≠ 0) (hhi : e ≠ 2047) :
    binary64Value b = some (((2 ^ 52 + f : Nat) : Rat) * 2 ^ e / 2 ^ 1075) := by
  simp only [binary64Value, hsign, hexp, hfrac, if_neg hlo, if_neg hhi, Bool.false_eq_true, if_false, one_mul,
    Nat.cast_add, Nat.cast_pow, Nat.cast_ofNat]

/-- The shift to bit 52 and the exponent `991 + p` cancel, which leaves `2^−32` (R172, R173). -/
theorem shifted_significand_value (a : Nat) {p : Nat} (hp : p < 32) :
    ((a * 2 ^ (52 - p) : Nat) : Rat) * 2 ^ (991 + p) / 2 ^ 1075 = a / 2 ^ Config.factBits := by
  have hpow : (2 : Rat) ^ (52 - p) * 2 ^ (991 + p) = 2 ^ 1043 := by rw [← pow_add]; congr 1; omega
  have hsplit : (2 : Rat) ^ 1075 = 2 ^ 1043 * 2 ^ 32 := (pow_add 2 1043 32)
  rw [Nat.cast_mul, Nat.cast_pow, Nat.cast_ofNat, mul_assoc, hpow, hsplit, mul_comm (a : Rat)]
  exact mul_div_mul_left _ _ (pow_ne_zero _ two_ne_zero)

/-- The pattern of a word denotes exactly `Scale(y)`: nothing is rounded (R172, R173). -/
theorem binary64Value_sampleBits (y : Word) : binary64Value (sampleBits y) = some (scale y) := by
  rcases sampleBits_cases y with ⟨rfl, hbits⟩ | ⟨p, hp, hle, hlt, -⟩
  · rw [hbits]
    simp [binary64Value, scale, Word.zext]
  · obtain ⟨-, -, hsign, hexp, hfrac⟩ := sampleBits_fields hle hlt
    rw [binary64Value_of_normal hsign hexp hfrac (by omega) (by omega), significand_eq hp hle,
      shifted_significand_value _ hp]
    rfl

/-- A sample is never negative, and its exponent field lies in 991 to 1022 unless it is `+0.0` (R173). -/
theorem sampleBits_sign_and_exponent (y : Word) :
    (sampleBits y).getLsbD 63 = false ∧ (sampleBits y ≠ 0#64 →
      991 ≤ ((sampleBits y).extractLsb' 52 11).toNat ∧ ((sampleBits y).extractLsb' 52 11).toNat ≤ 1022) := by
  rcases sampleBits_cases y with ⟨-, hbits⟩ | ⟨p, hp, hle, hlt, -⟩
  · rw [hbits]
    exact ⟨rfl, fun h => absurd rfl h⟩
  · obtain ⟨-, -, hsign, hexp, -⟩ := sampleBits_fields hle hlt
    exact ⟨hsign, fun _ => by omega⟩

end Sys2Proof.Machine

open Sys2Proof Sys2Proof.Machine Sys2Proof.Claims

/-- Settles O13: the pattern, its number and its fields follow from where the word's highest set bit stands
(`sampleBits_fields`, `binary64Value_sampleBits`, `sampleBits_sign_and_exponent`); the examples are evaluated. -/
theorem sampleBitsFollowTheBinary64Layout : Obligations.SampleBitsFollowTheBinary64Layout := by
  unfold Obligations.SampleBitsFollowTheBinary64Layout
  refine ⟨rfl, fun y p hp hp' => ?pattern, binary64Value_sampleBits, sampleBits_sign_and_exponent, ?examples⟩
  case pattern =>
    obtain ⟨-, hpattern, -⟩ := sampleBits_fields hp hp'
    exact hpattern
  case examples => decide

end

section
/-! PROOF. O31, O32, O34 and O33: construction of the two units and the tempering switch (R180 to R183). -/

namespace Sys2Proof

/-- A construction is encoded as its command word and then its payload (R72, R73). -/
theorem encodeSeed_eq_cons (op : BitVec 4) (t : Bool) (seed : Option (List Word)) :
    ∃ c, encodeSeed op t seed = c :: seed.getD [] ∧ opField c = op ∧ tField c = t ∧ pField c = seed.isSome := by
  cases seed with
  | none => exact ⟨_, rfl, opField_commandWord .., tField_commandWord .., pField_commandWord ..⟩
  | some ws => exact ⟨_, rfl, opField_commandWord .., tField_commandWord .., pField_commandWord ..⟩

end Sys2Proof

namespace Sys2Proof.Machine

/-- The array a seed fills is in canonical form. -/
theorem Memory.wf_ofSeed (ws : List Word) : (Memory.ofSeed ws).wf := Memory.wf_of_full (Memory.full_ofSeed ws)

/-! The seed check. -/

theorem checkSeed_of_length_eq {R : Nat} {ws : List Word} (h : ws.length = R) : checkSeed R (some ws) = .ok ws :=
  if_pos h

theorem checkSeed_of_length_ne {R : Nat} {ws : List Word} (h : ws.length ≠ R) :
    checkSeed R (some ws) = .error .invalidSeedLength := if_neg h

/-- A seed that is turned down is turned down with an error of R201. -/
theorem checkSeed_error_ne_ok {R : Nat} {seed : Option (List Word)} {e : Status} (h : checkSeed R seed = .error e) :
    e ≠ .ok := by
  rintro rfl
  rcases checkSeed_cases R seed with ⟨-, h'⟩ | ⟨ws, -, -, h'⟩ | ⟨ws, -, -, h'⟩ <;> cases h.symm.trans h'

/-! A construction looks at its seed alone: what the check answers decides the outcome in every state. -/

theorem exec_seeds_of_error {seed : Option (List Word)} {e : Status} (h : checkSeed Config.sR seed = .error e)
    (s : State) : exec (.seeds seed) s = .next (s.answer ⟨e.code, 0#64⟩) := by
  simp only [exec, execSeeds, h, raise_eq]

theorem exec_seeds_of_ok {seed : Option (List Word)} {ws : List Word} (h : checkSeed Config.sR seed = .ok ws)
    (s : State) :
    exec (.seeds seed) s = .next (State.answer { s with unitS := .construct Config.small ws } ⟨0#4, 0#64⟩) := by
  simp only [exec, execSeeds, h, respondOk_eq]

theorem exec_seedl_of_error {seed : Option (List Word)} {e : Status} (h : checkSeed Config.lR seed = .error e)
    (t : Bool) (s : State) : exec (.seedl t seed) s = .next (s.answer ⟨e.code, 0#64⟩) := by
  simp only [exec, execSeedl, h, raise_eq]

theorem exec_seedl_of_ok {seed : Option (List Word)} {ws : List Word} (h : checkSeed Config.lR seed = .ok ws)
    (t : Bool) (s : State) :
    exec (.seedl t seed) s = .next (State.answer { s with unitL := .construct t ws } ⟨0#4, 0#64⟩) := by
  simp only [exec, execSeedl, h, respondOk_eq]

/-! The tempering switch of an instance. -/

theorem execTemper_of_started (b : Bool) {s : State} (hc : s.unitL.constructed = true)
    (hs : s.unitL.started = true) : execTemper b s = .next (s.answer ⟨4#4, 0#64⟩) := by
  simp [execTemper, hc, hs, Status.code]

theorem execTemper_of_not_started (b : Bool) {s : State} (hc : s.unitL.constructed = true)
    (hs : s.unitL.started = false) :
    execTemper b s = .next (State.answer { s with unitL := s.unitL.setTempering b } ⟨0#4, 0#64⟩) := by
  simp [execTemper, hc, hs]

end Sys2Proof.Machine

namespace Sys2Proof.Claims

open Sys2Proof.Machine

/-- A command that answered with an error's code did not answer OK. -/
theorem not_answersWith_ok_of_error {i : Instr} {s : State} {e : Status} (he : e ≠ .ok)
    (h : exec i s = .next (s.answer ⟨e.code, 0#64⟩)) : ¬ AnswersWith i s 0#4 := by
  rintro ⟨t, sample, ht, hr⟩
  cases h.symm.trans ht
  obtain ⟨hcode, -⟩ : e.code = 0#4 ∧ 0#64 = sample := by simpa using hr
  exact he ((Status.code_eq_zero_iff e).1 hcode)

/-- Whatever the old instance was, `i` constructs one new unit with the property `fresh` and answers OK; or, whatever it
was, `i` leaves it so and does not answer OK (R183). -/
def ConstructsOrFails {U : Type} (part : State → U) (fresh : U → Prop) (i : Instr) : Prop :=
  (∃ u, fresh u ∧ ∀ s, AnswersWith i s 0#4 ∧ ∃ t, exec i s = .next t ∧ part t = u) ∨
  (∀ s, ¬ AnswersWith i s 0#4 ∧ ∃ t, exec i s = .next t ∧ part t = part s)

/-- In two states, such a command leaves the same new unit in both or the old unit in each. -/
theorem ConstructsOrFails.keeps_nothing {U : Type} {part : State → U} {fresh : U → Prop} {i : Instr}
    (h : ConstructsOrFails part fresh i) {s s' t t' : State} (ht : exec i s = .next t) (ht' : exec i s' = .next t') :
    (part t = part t' ∧ fresh (part t) ∧ AnswersWith i s 0#4) ∨
    (part t = part s ∧ part t' = part s' ∧ ¬ AnswersWith i s 0#4) := by
  rcases h with ⟨u, hu, h⟩ | h
  all_goals
    obtain ⟨hanswer, _, hexec, hpart⟩ := h s
    obtain ⟨-, _, hexec', hpart'⟩ := h s'
    cases hexec.symm.trans ht
    cases hexec'.symm.trans ht'
  · exact .inl ⟨hpart.trans hpart'.symm, hpart ▸ hu, hanswer⟩
  · exact .inr ⟨hpart, hpart', hanswer⟩

theorem seeds_constructsOrFails (seed : Option (List Word)) :
    ConstructsOrFails State.unitS (fun u => u.constructed = true) (.seeds seed) := by
  cases h : checkSeed Config.sR seed with
  | ok ws =>
    have hexec := exec_seeds_of_ok h
    exact .inl ⟨.construct Config.small ws, rfl, fun s => ⟨⟨_, _, hexec s, rfl⟩, _, hexec s, rfl⟩⟩
  | error e =>
    have hexec := exec_seeds_of_error h
    exact .inr fun s => ⟨not_answersWith_ok_of_error (checkSeed_error_ne_ok h) (hexec s), _, hexec s, rfl⟩

theorem seedl_constructsOrFails (b : Bool) (seed : Option (List Word)) :
    ConstructsOrFails State.unitL (fun u => u.constructed = true ∧ u.started = false) (.seedl b seed) := by
  cases h : checkSeed Config.lR seed with
  | ok ws =>
    have hexec := exec_seedl_of_ok h b
    exact .inl ⟨.construct b ws, ⟨rfl, rfl⟩, fun s => ⟨⟨_, _, hexec s, rfl⟩, _, hexec s, rfl⟩⟩
  | error e =>
    have hexec := exec_seedl_of_error h b
    exact .inr fun s => ⟨not_answersWith_ok_of_error (checkSeed_error_ne_ok h) (hexec s), _, hexec s, rfl⟩

end Sys2Proof.Claims

open Sys2Proof Sys2Proof.Machine Sys2Proof.Claims

/-- Settles O31: the seed check decides the outcome (`exec_seeds_of_error`, `exec_seeds_of_ok`), and the array it fills
reads as the seed (`Memory.read_ofSeed`). -/
theorem seedsConstructsOrFails : Obligations.SeedsConstructsOrFails := by
  unfold Obligations.SeedsConstructsOrFails
  refine ⟨fun seed => ?encoding, fun s => ⟨exec_seeds_of_error (e := .nullSeed) rfl s,
    fun ws h => exec_seeds_of_error (checkSeed_of_length_ne h) s,
    fun ws h => ⟨Memory.ofSeed ws, exec_seeds_of_ok (checkSeed_of_length_eq h) s, Memory.wf_ofSeed ws,
      Memory.read_ofSeed ws⟩⟩⟩
  case encoding =>
    obtain ⟨c, hc, hop, -, hp⟩ := encodeSeed_eq_cons 1#4 false seed
    exact ⟨c, congrArg Code.cmd32 hc, hop, hp⟩

/-- Settles O32: as for SEEDS, with the tempering flag in the command word and in the new instance
(`exec_seedl_of_error`, `exec_seedl_of_ok`). -/
theorem seedlConstructsOrFails : Obligations.SeedlConstructsOrFails := by
  unfold Obligations.SeedlConstructsOrFails
  refine ⟨fun t seed => ?encoding, fun s t => ⟨exec_seedl_of_error (e := .nullSeed) rfl t s,
    fun ws h => exec_seedl_of_error (checkSeed_of_length_ne h) t s,
    fun ws h => ⟨Memory.ofSeed ws, exec_seedl_of_ok (checkSeed_of_length_eq h) t s, Memory.wf_ofSeed ws,
      Memory.read_ofSeed ws⟩⟩⟩
  case encoding =>
    obtain ⟨c, hc, hfields⟩ := encodeSeed_eq_cons 2#4 t seed
    exact ⟨c, congrArg Code.cmd32 hc, hfields⟩

/-- Settles O33: one lemma for each of the three cases of R182. -/
theorem temperSetsTheSwitchBeforeTheFirstSample : Obligations.TemperSetsTheSwitchBeforeTheFirstSample := by
  unfold Obligations.TemperSetsTheSwitchBeforeTheFirstSample
  exact ⟨fun t => ⟨_, rfl, opField_commandWord .., tField_commandWord ..⟩,
    fun s t => ⟨execTemper_of_not_constructed t, execTemper_of_started t, execTemper_of_not_started t⟩⟩

/-- Settles O34: each construction either makes one new unit from every state or fails in every state
(`seeds_constructsOrFails`, `seedl_constructsOrFails`). -/
theorem reseedingKeepsNothing : Obligations.ReseedingKeepsNothing := by
  unfold Obligations.ReseedingKeepsNothing
  constructor
  · intro seed s s' t t' ht ht'
    exact (seeds_constructsOrFails seed).keeps_nothing ht ht'
  · intro b seed s s' t t' ht ht'
    simpa only [and_assoc] using (seedl_constructsOrFails b seed).keeps_nothing ht ht'

end

section
/-! PROOF. O39: what raising an error leaves (R205). -/

namespace Sys2Proof.Machine

/-- The codes of R201 tell the statuses apart. -/
theorem Status.code_inj {e e' : Status} : e.code = e'.code ↔ e = e' := by
  cases e <;> cases e' <;> decide

/-- The last response is determined by the list it ends. -/
theorem response_unique {rs : List Response} {r r' : Response} (h : rs ++ [r] = rs ++ [r']) : r = r' := by
  simpa using h

/-- An instruction whose response is not OK raised an error: the response carries its code alone, and nothing but the
list of responses changed. -/
theorem exec_error {i : Instr} {s t : State} {r : Response} (h : exec i s = .next t)
    (hr : t.responses = s.responses ++ [r]) (hne : r.status ≠ 0#4) :
    ∃ e : Status, e ≠ .ok ∧ e ≠ .illegalCommand ∧ r = ⟨e.code, 0#64⟩ ∧ t = s.answer r := by
  have not_ok : ∀ sample, t.responses ≠ s.responses ++ [⟨0#4, sample⟩] := fun sample hok =>
    hne (congrArg Response.status (response_unique (hr.symm.trans hok)))
  rcases exec_next_cases h with ⟨e, he, he', rfl⟩ | ⟨ws, -, -, rfl⟩ | ⟨b, ws, -, -, rfl⟩ | ⟨b, -, -, -, rfl⟩ |
    ⟨-, -, x, -, rfl⟩ | ⟨-, -, x, -, rfl⟩ | ⟨m, -, -, x, -, rfl⟩
  · obtain rfl := response_unique hr
    exact ⟨e, he, he', rfl, rfl⟩
  · exact absurd rfl (not_ok _)
  · exact absurd rfl (not_ok _)
  · exact absurd rfl (not_ok _)
  · exact absurd rfl (not_ok _)
  · exact absurd rfl (not_ok _)
  · simp at hr

/-- No instruction reads the responses given before: with other ones it makes the same step. -/
theorem exec_with_responses (i : Instr) {s t : State} (rs : List Response) (h : exec i s = .next t) :
    ∃ t' new, exec i { s with responses := rs } = .next t' ∧ t.responses = s.responses ++ new ∧
      t' = { t with responses := rs ++ new } := by
  cases hi : ofUnitS i with
  | true =>
    obtain ⟨u, new, rfl, h'⟩ :=
      (exec_local_of_unitS hi s.unitS).next_of_part_eq (s' := { s with responses := rs }) rfl h
    exact ⟨_, new, h', rfl, rfl⟩
  | false =>
    obtain ⟨u, new, rfl, h'⟩ :=
      (exec_local_of_unitL hi s.unitL).next_of_part_eq (s' := { s with responses := rs }) rfl h
    exact ⟨_, new, h', rfl, rfl⟩

end Sys2Proof.Machine

open Sys2Proof Sys2Proof.Machine Sys2Proof.Claims

/-- Settles O39: `exec_error` for an instruction, and for a step the same in the state with the command's words taken;
`exec_with_responses` for the earlier responses. -/
theorem errorsChangeNothing : Obligations.ErrorsChangeNothing := by
  unfold Obligations.ErrorsChangeNothing
  refine ⟨fun i s t r h hr hne => ?instr, fun s t r h hr hne => ?step, fun i s t rs => exec_with_responses i rs⟩
  case instr =>
    obtain ⟨e, -, -, rfl, rfl⟩ := exec_error h hr hne
    rfl
  case step =>
    rcases step_next_cases h with ⟨rest, -, rfl⟩ | ⟨hd, rfl⟩ | ⟨i, used, hd, -, he⟩
    · simp at hr
    · obtain rfl := response_unique hr
      exact ⟨1, rfl, fun _ => rfl, fun i k hk => nomatch hd.symm.trans hk⟩
    · obtain ⟨e, -, hne', rfl, rfl⟩ := exec_error he hr hne
      refine ⟨used, rfl, fun h5 => absurd (Status.code_inj.1 h5) hne', fun i' k hk => ?_⟩
      cases hd.symm.trans hk
      rfl

end

section
/-! PROOF. O41 and O40: which command raises which error and exactly when (R202), and that stepping an instance raises
none (R209). -/

namespace Sys2Proof.Machine

/-! IllegalCommand (R77). -/

/-- A step on an illegal command word, as the decoder sees it. -/
theorem step_of_decode_illegal {s : State} (h : decode (leadingWords s.inputs) = .illegal) :
    step s = .next ((s.consume 1).answer ⟨5#4, 0#64⟩) := by
  cases hin : s.inputs with
  | nil => rw [hin] at h; cases h
  | cons x rest =>
    rw [hin] at h
    cases x with
    | reset => cases h
    | word c => exact step_of_illegal hin ((decode_eq_illegal_iff c _).1 h)

/-- IllegalCommand is the answer to an illegal command word, and to no command. -/
theorem step_illegalCommand_iff (s : State) :
    (∃ t sample, step s = .next t ∧ t.responses = s.responses ++ [⟨5#4, sample⟩]) ↔
      decode (leadingWords s.inputs) = .illegal := by
  refine ⟨?_, fun h => ⟨_, _, step_of_decode_illegal h, rfl⟩⟩
  rintro ⟨t, sample, h, hr⟩
  rcases step_next_cases h with ⟨rest, -, rfl⟩ | ⟨hd, -⟩ | ⟨i, used, -, -, he⟩
  · simp at hr
  · exact hd
  · obtain ⟨e, -, hne, hcode, -⟩ := exec_error he hr (show 5#4 ≠ 0#4 by decide)
    have h5 : Status.illegalCommand.code = e.code := congrArg Response.status hcode
    exact absurd (Status.code_inj.1 h5).symm hne

/-! The reads that never leave the array. -/

/-- A sequence raises no error that neither part raises. -/
theorem bind_ne_error {ε α β : Type} {x : Except ε α} {f : α → Except ε β} {e : ε} (hx : x ≠ .error e)
    (hf : ∀ a, f a ≠ .error e) : x >>= f ≠ .error e := by
  cases x with
  | error e' => exact fun h => hx (by cases h; rfl)
  | ok a => exact hf a

/-- The addresses of unit S are reduced modulo 32, so a read of its words is never out of range (R110). -/
theorem readSmallTaps_ne_indexOutOfRange (c : Config.SmallParams) (m : Memory) (i : Nat) :
    readSmallTaps m (smallAddrs c i) ≠ .error .indexOutOfRange := by
  have inRange : ∀ x : Nat, memRead Config.sR m ((x % Config.sR : Nat) : Int) ≠ .error .indexOutOfRange :=
    fun x h => memRead_eq_indexOutOfRange_iff.1 h
      ⟨Int.natCast_nonneg _, Int.ofNat_lt.2 (Nat.mod_lt x (by decide))⟩
  exact bind_ne_error (inRange _) fun _ => bind_ne_error (inRange _) fun _ =>
    bind_ne_error (inRange _) fun _ => bind_ne_error (inRange _) fun _ =>
    bind_ne_error (inRange _) nofun

/-! NEXTL from what the case rule of its mode answers (R145). -/

theorem execNextl_of_advance_ok {s : State} {u : UnitL} {y : Word} (hc : s.unitL.constructed = true)
    (h : s.unitL.advance Config.large s.unitL.mode = .ok (u, y)) :
    execNextl s = .next (State.answer { s with unitL := u.markStarted }
      ⟨0#4, sampleBits (outputWord s.unitL.tempering y)⟩) := by
  simp [execNextl, hc, h]

theorem execNextl_of_advance_error {s : State} {e : AccessError} (hc : s.unitL.constructed = true)
    (h : s.unitL.advance Config.large s.unitL.mode = .error e) : execNextl s = raiseAccess .L e s := by
  simp [execNextl, hc, h]

/-! The table of R202. -/

/-- The rows of R202 that a command can raise, each with its condition on the state. -/
inductive Raises (s : State) : Instr → Status → Prop
  | seeds {seed e} : checkSeed Config.sR seed = .error e → Raises s (.seeds seed) e
  | seedl {t seed e} : checkSeed Config.lR seed = .error e → Raises s (.seedl t seed) e
  | nexts : s.unitS.constructed = false → Raises s .nexts .notConstructed
  | nextl : s.unitL.constructed = false → Raises s .nextl .notConstructed
  | temper {t} : s.unitL.constructed = false → Raises s (.temper t) .notConstructed
  | temperLocked {t} : s.unitL.constructed = true → s.unitL.started = true → Raises s (.temper t) .temperingLocked
  | nextlOutOfRange : s.unitL.constructed = true →
      s.unitL.advance Config.large s.unitL.mode = .error .indexOutOfRange → Raises s .nextl .indexOutOfRange

/-- On the condition of a row the command answers the error's code alone and changes nothing (R205). -/
theorem Raises.exec_eq {s : State} {i : Instr} {e : Status} (h : Raises s i e) :
    exec i s = .next (s.answer ⟨e.code, 0#64⟩) := by
  cases h with
  | seeds h => exact exec_seeds_of_error h s
  | seedl h => exact exec_seedl_of_error h _ s
  | nexts hc => exact execNexts_of_not_constructed hc
  | nextl hc => exact execNextl_of_not_constructed hc
  | temper hc => exact execTemper_of_not_constructed _ hc
  | temperLocked hc hs => exact execTemper_of_started _ hc hs
  | nextlOutOfRange hc ha => exact execNextl_of_advance_error hc ha

namespace Raises

variable {s : State} {e : Status} {t : Bool} {seed : Option (List Word)}

theorem seeds_iff : Raises s (.seeds seed) e ↔ checkSeed Config.sR seed = .error e :=
  ⟨fun | .seeds h => h, .seeds⟩

theorem seedl_iff : Raises s (.seedl t seed) e ↔ checkSeed Config.lR seed = .error e :=
  ⟨fun | .seedl h => h, .seedl⟩

theorem nexts_notConstructed_iff : Raises s .nexts .notConstructed ↔ s.unitS.constructed = false :=
  ⟨fun | .nexts h => h, .nexts⟩

theorem nextl_notConstructed_iff : Raises s .nextl .notConstructed ↔ s.unitL.constructed = false :=
  ⟨fun | .nextl h => h, .nextl⟩

theorem temper_notConstructed_iff : Raises s (.temper t) .notConstructed ↔ s.unitL.constructed = false :=
  ⟨fun | .temper h => h, .temper⟩

theorem temper_temperingLocked_iff :
    Raises s (.temper t) .temperingLocked ↔ s.unitL.constructed = true ∧ s.unitL.started = true :=
  ⟨fun | .temperLocked hc hs => ⟨hc, hs⟩, fun ⟨hc, hs⟩ => .temperLocked hc hs⟩

theorem nextl_indexOutOfRange_iff (hc : s.unitL.constructed = true) :
    Raises s .nextl .indexOutOfRange ↔ s.unitL.advance Config.large s.unitL.mode = .error .indexOutOfRange :=
  ⟨fun | .nextlOutOfRange _ h => h, .nextlOutOfRange hc⟩

end Raises

/-- A command is in a row of R202, or it answers OK, or the model faults on a word that holds no value. -/
theorem command_outcome {i : Instr} (hi : i.isCommand = true) (s : State) :
    (∃ e, Raises s i e) ∨
    (∃ (s' : State) (sample : BitVec 64), exec i s = .next (s'.answer ⟨0#4, sample⟩) ∧ s'.responses = s.responses) ∨
    (∃ f, exec i s = .fault f) := by
  rcases caseRule_or i with ⟨seed, rfl⟩ | ⟨b, seed, rfl⟩ | ⟨b, rfl⟩ | rfl | rfl | ⟨m, rfl⟩
  · cases h : checkSeed Config.sR seed with
    | error e => exact .inl ⟨e, .seeds h⟩
    | ok ws => exact .inr (.inl ⟨_, _, exec_seeds_of_ok h s, rfl⟩)
  · cases h : checkSeed Config.lR seed with
    | error e => exact .inl ⟨e, .seedl h⟩
    | ok ws => exact .inr (.inl ⟨_, _, exec_seedl_of_ok h b s, rfl⟩)
  · rcases execTemper_cases b s with ⟨hc, -⟩ | ⟨hc, hs, -⟩ | ⟨-, -, h⟩
    · exact .inl ⟨_, .temper hc⟩
    · exact .inl ⟨_, .temperLocked hc hs⟩
    · exact .inr (.inl ⟨_, _, h, rfl⟩)
  · rcases execNexts_cases s with ⟨hc, -⟩ | ⟨-, x, -, h⟩ | ⟨-, e, he, h⟩
    · exact .inl ⟨_, .nexts hc⟩
    · exact .inr (.inl ⟨_, _, h, rfl⟩)
    · cases e with
      | indexOutOfRange => exact absurd he (readSmallTaps_ne_indexOutOfRange _ _ _)
      | noValue a => exact .inr (.inr ⟨_, h⟩)
  · cases hc : s.unitL.constructed with
    | false => exact .inl ⟨_, .nextl hc⟩
    | true =>
      cases ha : s.unitL.advance Config.large s.unitL.mode with
      | ok p => exact .inr (.inl ⟨_, _, execNextl_of_advance_ok hc ha, rfl⟩)
      | error e =>
        cases e with
        | indexOutOfRange => exact .inl ⟨_, .nextlOutOfRange hc ha⟩
        | noValue a => exact .inr (.inr ⟨_, execNextl_of_advance_error hc ha⟩)
  · cases m <;> cases hi

/-! When the seed check raises which error (R180, R181). -/

theorem checkSeed_eq_nullSeed_iff {R : Nat} {seed : Option (List Word)} :
    checkSeed R seed = .error .nullSeed ↔ seed = none := by
  rcases checkSeed_cases R seed with ⟨rfl, h⟩ | ⟨ws, rfl, -, h⟩ | ⟨ws, rfl, -, h⟩ <;> simp [h]

theorem checkSeed_eq_invalidSeedLength_iff {R : Nat} {seed : Option (List Word)} :
    checkSeed R seed = .error .invalidSeedLength ↔ ∃ ws, seed = some ws ∧ ws.length ≠ R := by
  rcases checkSeed_cases R seed with ⟨rfl, h⟩ | ⟨ws, rfl, hl, h⟩ | ⟨ws, rfl, hl, h⟩
  · simp [h]
  · simp [h, hl]
  · simp [h, hl]

/-- The seed check raises no other error. -/
theorem checkSeed_error_cases {R : Nat} {seed : Option (List Word)} {e : Status} (h : checkSeed R seed = .error e) :
    e = .nullSeed ∨ e = .invalidSeedLength := by
  rcases checkSeed_cases R seed with ⟨-, h'⟩ | ⟨ws, -, -, h'⟩ | ⟨ws, -, -, h'⟩ <;> cases h.symm.trans h'
  · exact .inl rfl
  · exact .inr rfl

/-- Where the words hold values, the case rule of the mode is out of range exactly off the mode's region (R32, R203). -/
theorem UnitL.advance_outOfRange_iff (c : Config.LargeParams) {u : UnitL} {w : Nat → Word}
    (hw : u.words.Holds Config.lR w) :
    u.advance c u.mode = .error .indexOutOfRange ↔ Config.lR ≤ u.index ∨ u.mode ≠ regionOf u.index := by
  refine ⟨fun h => ?_, UnitL.advance_of_offRegion c hw⟩
  by_contra hon
  obtain ⟨hi, hm⟩ : u.index < Config.lR ∧ u.mode = regionOf u.index := by simpa using hon
  rw [hm, UnitL.advance_of_holds c hi hw] at h
  cases h

end Sys2Proof.Machine

namespace Sys2Proof.Claims

open Sys2Proof.Machine

/-- A command answers a code other than OK only by a row of R202 with that code. -/
theorem raises_of_answersWith {i : Instr} {s : State} {code : BitVec 4} (hi : i.isCommand = true)
    (h : AnswersWith i s code) (hcode : code ≠ 0#4) : ∃ e, code = e.code ∧ Raises s i e := by
  obtain ⟨t, sample, ht, hr⟩ := h
  rcases command_outcome hi s with ⟨e, he⟩ | ⟨s', b, hok, hs'⟩ | ⟨f, hf⟩
  · cases he.exec_eq.symm.trans ht
    exact ⟨e, (congrArg Response.status (response_unique hr)).symm, he⟩
  · cases hok.symm.trans ht
    rw [State.answer_responses, hs'] at hr
    exact absurd (congrArg Response.status (response_unique hr)).symm hcode
  · cases hf.symm.trans ht

theorem answersWith_iff_raises {i : Instr} {s : State} (e : Status) (hi : i.isCommand = true) (he : e ≠ .ok) :
    AnswersWith i s e.code ↔ Raises s i e := by
  refine ⟨fun h => ?_, fun h => ⟨_, _, h.exec_eq, rfl⟩⟩
  obtain ⟨e', hcode, hraises⟩ := raises_of_answersWith hi h (mt (Status.code_eq_zero_iff e).1 he)
  exact Status.code_inj.1 hcode ▸ hraises

/-! A step of an instance (R209). -/

theorem nexts_answers_ok {s : State} (h : s.unitS.Ready) : AnswersWith .nexts s 0#4 := by
  obtain ⟨w, hw⟩ := UnitS.exists_holds h
  exact ⟨_, _, execNexts_of_holds h.1 hw, rfl⟩

theorem nextl_answers_ok {s : State} (h : s.unitL.Ready) : AnswersWith .nextl s 0#4 := by
  obtain ⟨w, hw⟩ := UnitL.exists_holds h
  exact ⟨_, _, execNextl_of_holds h hw, rfl⟩

end Sys2Proof.Claims

open Sys2Proof Sys2Proof.Machine Sys2Proof.Claims

/-- Settles O41: a legal instance holds a value at every address a step reads (`UnitS.exists_holds`,
`UnitL.exists_holds`). -/
theorem steppingCannotFail : Obligations.SteppingCannotFail := by
  unfold Obligations.SteppingCannotFail
  exact ⟨fun s => nexts_answers_ok, fun s => nextl_answers_ok⟩

/-- Settles O40: a command answers an error exactly on the condition of its row (`answersWith_iff_raises`), and the rows
are those of `Raises`. -/
theorem errorsExactlyWhen : Obligations.ErrorsExactlyWhen := by
  unfold Obligations.ErrorsExactlyWhen
  intro s
  refine ⟨fun seed => ?nullSeeds, fun t seed => ?nullSeedl, fun seed => ?lengthSeeds, fun t seed => ?lengthSeedl,
    ?noInstanceNexts, ?noInstanceNextl, fun t => ?noInstanceTemper, fun t => ?locked, step_illegalCommand_iff s,
    fun w hc hw => ?outOfRange, nexts_answers_ok, nextl_answers_ok, fun i code hi h hcode => ?table⟩
  case nullSeeds =>
    exact (answersWith_iff_raises .nullSeed rfl nofun).trans (Raises.seeds_iff.trans checkSeed_eq_nullSeed_iff)
  case nullSeedl =>
    exact (answersWith_iff_raises .nullSeed rfl nofun).trans (Raises.seedl_iff.trans checkSeed_eq_nullSeed_iff)
  case lengthSeeds =>
    exact (answersWith_iff_raises .invalidSeedLength rfl nofun).trans
      (Raises.seeds_iff.trans checkSeed_eq_invalidSeedLength_iff)
  case lengthSeedl =>
    exact (answersWith_iff_raises .invalidSeedLength rfl nofun).trans
      (Raises.seedl_iff.trans checkSeed_eq_invalidSeedLength_iff)
  case noInstanceNexts =>
    exact (answersWith_iff_raises .notConstructed rfl nofun).trans Raises.nexts_notConstructed_iff
  case noInstanceNextl =>
    exact (answersWith_iff_raises .notConstructed rfl nofun).trans Raises.nextl_notConstructed_iff
  case noInstanceTemper =>
    exact (answersWith_iff_raises .notConstructed rfl nofun).trans Raises.temper_notConstructed_iff
  case locked =>
    exact (answersWith_iff_raises .temperingLocked rfl nofun).trans Raises.temper_temperingLocked_iff
  case outOfRange =>
    exact (answersWith_iff_raises .indexOutOfRange rfl nofun).trans
      ((Raises.nextl_indexOutOfRange_iff hc).trans (UnitL.advance_outOfRange_iff Config.large hw))
  case table =>
    obtain ⟨e, rfl, he⟩ := raises_of_answersWith hi h hcode
    refine ⟨he.exec_eq, ?_⟩
    cases he with
    | seeds h => rcases checkSeed_error_cases h with rfl | rfl <;> simp [Status.code]
    | seedl h => rcases checkSeed_error_cases h with rfl | rfl <;> simp [Status.code]
    | nexts | nextl | temper | temperLocked | nextlOutOfRange => simp [Status.code]

end

section
/-! PROOF. O1, O2, O5, O6 and O7: decoding and encoding as inverses (R72, R73, R76, R81), and the step on the command
that the decoder reads (R58, R78). -/

namespace Sys2Proof

/-! A header with a payload of the announced length, as the common form of what is decoded and what is encoded (R73). -/

/-- A legal command word and the payload it announces decode, whatever follows. -/
theorem decode_of_decodeHeader {c : Word} {h : Header} {payload : List Word} (hd : decodeHeader c = some h)
    (hl : payload.length = h.payloadLength) (rest : List Word) :
    decode (c :: (payload ++ rest)) = .instr (h.attach payload) (1 + h.payloadLength) := by
  have hle : h.payloadLength ≤ (payload ++ rest).length := by rw [List.length_append]; omega
  rw [decode, hd]
  simp only [if_pos hle, List.take_left' hl]

/-- All that decodes to an instruction. -/
theorem decode_eq_instr {ws : List Word} {i : Instr} {used : Nat} (h : decode ws = .instr i used) :
    ∃ c payload rest hd, ws = c :: (payload ++ rest) ∧ decodeHeader c = some hd ∧
      payload.length = hd.payloadLength ∧ i = hd.attach payload ∧ used = 1 + hd.payloadLength := by
  cases ws with
  | nil => cases h
  | cons c tail =>
    rw [decode] at h
    cases hc : decodeHeader c with
    | none => rw [hc] at h; cases h
    | some hd =>
      simp only [hc] at h
      split at h
      · next hle =>
        cases h
        exact ⟨c, tail.take hd.payloadLength, tail.drop hd.payloadLength, hd, by rw [List.take_append_drop], hc,
          List.length_take_of_le hle, rfl, rfl⟩
      · cases h

theorem encode_attach {h : Header} {payload : List Word} (hl : payload.length = h.payloadLength) :
    encode (h.attach payload) = .cmd32 (h.word :: payload) := by
  cases h with
  | seeds count | seedl t count =>
    cases count with
    | none => rw [List.eq_nil_of_length_eq_zero hl]; rfl
    | some k => obtain rfl : payload.length = k := hl; rfl
  | temper t | nexts | nextl => rw [List.eq_nil_of_length_eq_zero hl]; rfl

/-- Such an instruction is well formed exactly when its count fits the field `n` (R71). -/
theorem wf_attach_iff {h : Header} {payload : List Word} (hl : payload.length = h.payloadLength) :
    (h.attach payload).wf = true ↔ h.payloadLength < 65536 := by
  cases h with
  | seeds count | seedl t count =>
    cases count with
    | none => exact iff_of_true rfl Nat.ofNat_pos
    | some k => obtain rfl : payload.length = k := hl; exact decide_eq_true_iff
  | temper t | nexts | nextl => exact iff_of_true rfl Nat.ofNat_pos

theorem isCommand_attach (h : Header) (payload : List Word) : (h.attach payload).isCommand = true := by
  cases h <;> rfl

/-- Every instruction is a header with its payload, or a case rule. -/
theorem attach_or_caseRule (i : Instr) :
    (∃ (h : Header) (payload : List Word), payload.length = h.payloadLength ∧ i = h.attach payload) ∨
      ∃ m : Mode, i = m.caseRule := by
  rcases Machine.caseRule_or i with ⟨seed, rfl⟩ | ⟨t, seed, rfl⟩ | ⟨t, rfl⟩ | rfl | rfl | hm
  · cases seed with
    | none => exact .inl ⟨.seeds none, [], rfl, rfl⟩
    | some ws => exact .inl ⟨.seeds (some ws.length), ws, rfl, rfl⟩
  · cases seed with
    | none => exact .inl ⟨.seedl t none, [], rfl, rfl⟩
    | some ws => exact .inl ⟨.seedl t (some ws.length), ws, rfl, rfl⟩
  · exact .inl ⟨.temper t, [], rfl, rfl⟩
  · exact .inl ⟨.nexts, [], rfl, rfl⟩
  · exact .inl ⟨.nextl, [], rfl, rfl⟩
  · exact .inr hm

/-- A well-formed command's words decode to it, whatever follows them (R81). -/
theorem decode_encode_append {h : Header} {payload : List Word} (hl : payload.length = h.payloadLength)
    (hwf : (h.attach payload).wf = true) (rest : List Word) :
    decode ((h.word :: payload) ++ rest) = .instr (h.attach payload) (h.word :: payload).length := by
  have hd : decodeHeader h.word = some h := decodeHeader_word ((wf_attach_iff hl).1 hwf)
  rw [List.length_cons, hl, Nat.add_comm]
  exact decode_of_decodeHeader hd hl rest

/-- A list of words that decodes to an instruction and is used up spells it. -/
theorem decodeCode_of_decode {ws : List Word} {i : Instr} (h : decode ws = .instr i ws.length) :
    decodeCode (.cmd32 ws) = some i := by
  rw [decodeCode, h]
  exact if_pos rfl

/-! The mode field (R76). -/

theorem encode_caseRule (m : Mode) : encode m.caseRule = .mode3 (encodeMode m) := by cases m <;> rfl

theorem decodeMode_encodeMode (m : Mode) : decodeMode (encodeMode m) = some m := by cases m <;> rfl

theorem encodeMode_of_decodeMode {b : BitVec 3} {m : Mode} (h : decodeMode b = some m) : encodeMode m = b := by
  revert b
  cases m <;> decide

end Sys2Proof

namespace Sys2Proof.Machine

/-- A step runs the command at the front of the command stream, with its words taken (R58). -/
theorem step_of_decode {s : State} {i : Instr} {used : Nat} (h : decode (leadingWords s.inputs) = .instr i used) :
    step s = exec i (s.consume used) := by
  rcases fetch_cases s.inputs with ⟨hin, -⟩ | ⟨rest, hin, -⟩ | ⟨i', used', hd, hf⟩ | ⟨hd, -⟩ | ⟨w, rest, -, hd, -⟩
  · rw [hin] at h; cases h
  · rw [hin] at h; cases h
  · cases hd.symm.trans h
    rw [step, hf]
  · cases hd.symm.trans h
  · cases hd.symm.trans h

/-- No instruction takes host inputs: the step has taken them before. -/
theorem exec_inputs {i : Instr} {s t : State} (h : exec i s = .next t) : t.inputs = s.inputs := by
  rcases exec_next_cases h with ⟨e, -, -, rfl⟩ | ⟨ws, -, -, rfl⟩ | ⟨b, ws, -, -, rfl⟩ | ⟨b, -, -, -, rfl⟩ |
    ⟨-, -, x, -, rfl⟩ | ⟨-, -, x, -, rfl⟩ | ⟨m, -, -, x, -, rfl⟩ <;> rfl

end Sys2Proof.Machine

open Sys2Proof Sys2Proof.Machine

/-- Settles O1: a command is a header with its payload (`attach_or_caseRule`), whose words decode back
(`decode_encode_append`); a case rule goes through the mode field. -/
theorem encodedInstructionsDecodeBack : Obligations.EncodedInstructionsDecodeBack := by
  unfold Obligations.EncodedInstructionsDecodeBack
  intro i hwf
  rcases attach_or_caseRule i with ⟨h, payload, hl, rfl⟩ | ⟨m, rfl⟩
  · have hdecode := decode_encode_append hl hwf
    rw [encode_attach hl]
    refine ⟨decodeCode_of_decode ?whole, ?withRest⟩
    case whole => simpa only [List.append_nil] using hdecode []
    case withRest =>
      rintro ws rest ⟨⟩
      exact hdecode rest
  · rw [encode_caseRule]
    exact ⟨congrArg (Option.map Mode.caseRule) (decodeMode_encodeMode m), nofun⟩

/-- Settles O2: the command word that was decoded is the one word of its header (`eq_word_of_decodeHeader`), and a mode
value the one of its mode. -/
theorem decodedWordsAreTheOnlyEncoding : Obligations.DecodedWordsAreTheOnlyEncoding := by
  unfold Obligations.DecodedWordsAreTheOnlyEncoding
  refine ⟨fun ws i used h => ?words, fun b m h => ?mode⟩
  case words =>
    obtain ⟨c, payload, rest, hd, rfl, hc, hl, rfl, rfl⟩ := decode_eq_instr h
    obtain ⟨rfl, hcount⟩ := eq_word_of_decodeHeader hc
    refine ⟨(wf_attach_iff hl).2 hcount, isCommand_attach hd payload, ?_, ?_⟩
    · rw [List.length_cons, List.length_append]; omega
    · rw [encode_attach hl, Nat.add_comm, List.take_succ_cons, List.take_left' hl]
  case mode => rw [encode_caseRule, encodeMode_of_decodeMode h]

/-- Settles O7: the decoder reads the header with exactly its payload (`decode_of_decodeHeader`), the step runs it
(`step_of_decode`), and no instruction takes more (`exec_inputs`). -/
theorem commandTakesItsWholePayload : Obligations.CommandTakesItsWholePayload := by
  unfold Obligations.CommandTakesItsWholePayload
  intro s c h payload rest hd hl hin
  have hdecode : decode (leadingWords s.inputs) = .instr (h.attach payload) (1 + h.payloadLength) := by
    rw [hin, leadingWords, leadingWords_append]
    exact decode_of_decodeHeader hd hl _
  have htaken : s.inputs.drop (1 + h.payloadLength) = rest := by
    rw [hin, Nat.add_comm, List.drop_succ_cons, List.drop_left' (by rw [List.length_map, hl])]
  have hstep : step s = exec (h.attach payload) { s with inputs := rest } := by
    rw [step_of_decode hdecode, State.consume, htaken]
  exact ⟨hstep, fun t ht => exec_inputs (hstep.symm.trans ht)⟩

/-- Settles O5: each word is evaluated. -/
theorem specExampleWordsDecode : Obligations.SpecExampleWordsDecode := by
  unfold Obligations.SpecExampleWordsDecode
  decide

/-- Settles O6: the step looks at the front of the command stream through the decoder (`step_of_decode`). -/
theorem stepRunsTheDecodedCommand : Obligations.StepRunsTheDecodedCommand := by
  unfold Obligations.StepRunsTheDecodedCommand
  exact fun s i used => step_of_decode

end

section
/-! PROOF. O8, O9, O11 and O12: the bit-mixing primitives, the word recurrences and `Temper` bit by bit (R100, R101,
R104, R170). -/

namespace Sys2Proof.Machine

/-! Linear maps of words. -/

/-- A map of words that is linear over XOR and sends only 0 to 0 is a bijection. -/
theorem bijective_of_linear {f : Word → Word} (hlin : ∀ a b, f (a ^^^ b) = f a ^^^ f b)
    (hker : ∀ v, f v = 0#32 → v = 0#32) : Function.Bijective f := by
  refine Finite.injective_iff_bijective.1 fun a b hab => ?_
  have hzero : f (a ^^^ b) = 0#32 := by rw [hlin, hab, BitVec.xor_self]
  exact BitVec.xor_eq_zero_iff.1 (hker _ hzero)

/-- A word that its own right shift reproduces is 0: the number would be its own quotient by `2^t`. -/
theorem eq_zero_of_eq_shr {t : ShiftAmount} (ht : t ≠ 0) {v : Word} (h : v = v.shr t) : v = 0#32 := by
  have hpow : 1 < 2 ^ t.val := Nat.one_lt_two_pow (Fin.val_ne_zero_iff.2 ht)
  have hdiv : v.toNat = v.toNat / 2 ^ t.val := by
    rw [← Nat.shiftRight_eq_div_pow, ← BitVec.toNat_ushiftRight]
    exact congrArg BitVec.toNat h
  have hnat : v.toNat = 0 := by
    by_contra hne
    exact (Nat.div_lt_self (Nat.pos_of_ne_zero hne) hpow).ne hdiv.symm
  exact BitVec.eq_of_toNat_eq hnat

/-- A word that its own masked left shift reproduces is 0: each bit is a lower bit of the same word, or 0. -/
theorem eq_zero_of_eq_shl_and {t : ShiftAmount} (ht : t ≠ 0) {v m : Word} (h : v = v.shl t &&& m) : v = 0#32 := by
  have hpos : 0 < t.val := Fin.pos_iff_ne_zero.2 ht
  have hbit : ∀ i, v.getLsbD i = false := by
    intro i
    induction i using Nat.strong_induction_on with
    | _ i ih =>
      rw [h, Word.shl, BitVec.getLsbD_and, BitVec.getLsbD_shiftLeft]
      by_cases hi : i < t.val
      · simp [hi]
      · simp [ih (i - t.val) (by omega)]
  exact BitVec.eq_of_getLsbD_eq fun i _ => by rw [hbit, BitVec.getLsbD_zero]

theorem shr_xor (a b : Word) (t : ShiftAmount) : (a ^^^ b).shr t = a.shr t ^^^ b.shr t :=
  BitVec.ushiftRight_xor_distrib ..

theorem shl_xor (a b : Word) (t : ShiftAmount) : (a ^^^ b).shl t = a.shl t ^^^ b.shl t :=
  BitVec.shiftLeft_xor_distrib ..

/-- Exchange of the two middle terms of a sum. -/
theorem xor_xor_xor_comm (a b c d : Word) : a ^^^ b ^^^ (c ^^^ d) = a ^^^ c ^^^ (b ^^^ d) := by ac_rfl

/-! `mixRight` (R100). -/

theorem mixRight_xor (t : ShiftAmount) (a b : Word) : mixRight t (a ^^^ b) = mixRight t a ^^^ mixRight t b := by
  simp only [mixRight, shr_xor, xor_xor_xor_comm]

theorem mixRight_zero_amount (v : Word) : mixRight 0 v = 0#32 := by
  simp [mixRight, Word.shr]

theorem mixRight_zero_word (t : ShiftAmount) : mixRight t 0#32 = 0#32 := by
  simp [mixRight, Word.shr]

/-- R100 bit by bit. -/
theorem getLsbD_mixRight (t : ShiftAmount) (v : Word) (i : Nat) :
    (mixRight t v).getLsbD i = (v.getLsbD i ^^ v.getLsbD (t.val + i)) := by
  rw [mixRight, BitVec.getLsbD_xor, Word.shr, BitVec.getLsbD_ushiftRight]

/-- The top `t` bits stay: nothing is shifted onto them. -/
theorem getLsbD_mixRight_of_ge {t : ShiftAmount} (v : Word) {i : Nat} (hi : 32 - t.val ≤ i) :
    (mixRight t v).getLsbD i = v.getLsbD i := by
  have hbeyond : 32 ≤ t.val + i := Nat.sub_le_iff_le_add'.1 hi
  rw [getLsbD_mixRight, BitVec.getLsbD_of_ge v _ hbeyond, Bool.xor_false]

theorem mixRight_bijective {t : ShiftAmount} (ht : t ≠ 0) : Function.Bijective (mixRight t) :=
  bijective_of_linear (mixRight_xor t) fun _ h => eq_zero_of_eq_shr ht (BitVec.xor_eq_zero_iff.1 h)

/-- The largest amount moves bit 31 alone, to bit 0. -/
theorem mixRight_31 (v : Word) : mixRight 31 v = v ^^^ BitVec.setWidth 32 (BitVec.ofBool (v.getLsbD 31)) := by
  refine congrArg (v ^^^ ·) (BitVec.eq_of_getLsbD_eq fun i hi => ?_)
  rw [Word.shr, BitVec.getLsbD_ushiftRight, BitVec.getLsbD_setWidth, BitVec.getLsbD_ofBool]
  by_cases h0 : i = 0
  · subst h0; simp
  · have hbeyond : 32 ≤ (31 : ShiftAmount).val + i := Nat.add_le_add_left (Nat.pos_of_ne_zero h0) 31
    rw [BitVec.getLsbD_of_ge v _ hbeyond]; simp [h0]

/-! `mixLeft` (R101). -/

theorem mixLeft_xor (t : ShiftAmount) (a b : Word) : mixLeft t (a ^^^ b) = mixLeft t a ^^^ mixLeft t b := by
  simp only [mixLeft, shl_xor, xor_xor_xor_comm]

/-- The truncated left shift is the product modulo `2^32` (R9). -/
theorem shl_eq_ofNat_mul (t : ShiftAmount) (v : Word) : v.shl t = BitVec.ofNat 32 (v.toNat * 2 ^ t.val) :=
  BitVec.eq_of_toNat_eq (by rw [Word.shl, BitVec.toNat_shiftLeft, BitVec.toNat_ofNat, Nat.shiftLeft_eq])

theorem mixLeft_zero_amount (v : Word) : mixLeft 0 v = 0#32 := by
  simp [mixLeft, Word.shl]

theorem mixLeft_zero_word (t : ShiftAmount) : mixLeft t 0#32 = 0#32 := by
  simp [mixLeft, Word.shl]

/-- The low `t` bits stay: nothing is shifted onto them. -/
theorem getLsbD_mixLeft_of_lt {t : ShiftAmount} (v : Word) {i : Nat} (hi : i < t.val) :
    (mixLeft t v).getLsbD i = v.getLsbD i := by
  rw [mixLeft, BitVec.getLsbD_xor, Word.shl, BitVec.getLsbD_shiftLeft]
  simp [hi]

theorem mixLeft_bijective {t : ShiftAmount} (ht : t ≠ 0) : Function.Bijective (mixLeft t) := by
  refine bijective_of_linear (mixLeft_xor t) fun v h => eq_zero_of_eq_shl_and (m := BitVec.allOnes 32) ht ?_
  rw [BitVec.and_allOnes]
  exact BitVec.xor_eq_zero_iff.1 h

/-- The largest amount moves bit 0 alone, to bit 31. -/
theorem mixLeft_31 (v : Word) : mixLeft 31 v = v ^^^ (BitVec.setWidth 32 (BitVec.ofBool (v.getLsbD 0)) <<< 31) := by
  refine congrArg (v ^^^ ·) (BitVec.eq_of_getLsbD_eq fun i hi => ?_)
  rw [Word.shl, BitVec.getLsbD_shiftLeft, BitVec.getLsbD_shiftLeft, BitVec.getLsbD_setWidth, BitVec.getLsbD_ofBool]
  by_cases h31 : i < 31
  · simp [h31]
  · obtain rfl : i = 31 := by omega
    simp

/-! The step recurrences (R111, R132 to R135). -/

open Sys2Proof.Claims

theorem shiftRightOnly_xor (t : ShiftAmount) (a b : Word) :
    shiftRightOnly t (a ^^^ b) = shiftRightOnly t a ^^^ shiftRightOnly t b := shr_xor a b t

theorem smallNewWords_xor (c : Config.SmallParams) (x y : SmallTaps) :
    smallNewWords c (xorSmall x y) = xorNew (smallNewWords c x) (smallNewWords c y) := by
  simp only [smallNewWords, smallZ1, smallZ2, xorSmall, xorNew, mixLeft_xor, mixRight_xor, NewWords.mk.injEq]
  constructor <;> ac_rfl

/-- Bits chosen by a mask from one word and by its complement from another are linear in the two words. -/
theorem mask_or_compl_xor (m a b c d : Word) :
    ((a ^^^ b) &&& m) ||| ((c ^^^ d) &&& ~~~m) = ((a &&& m) ||| (c &&& ~~~m)) ^^^ ((b &&& m) ||| (d &&& ~~~m)) := by
  refine BitVec.eq_of_getLsbD_eq fun i hi => ?_
  simp only [BitVec.getLsbD_or, BitVec.getLsbD_and, BitVec.getLsbD_xor, BitVec.getLsbD_not, hi, decide_true,
    Bool.true_and]
  cases m.getLsbD i <;> simp

/-- The boundary mix is linear because the two masks of D10 are complementary. -/
theorem largeZ0_xor (x y : LargeTaps) :
    largeZ0 Config.large (xorLarge x y) = largeZ0 Config.large x ^^^ largeZ0 Config.large y := by
  have hmask : Config.large.maskU = ~~~Config.large.maskL := by decide
  simp only [largeZ0, xorLarge, hmask, mask_or_compl_xor]

theorem largeZ1_xor (c : Config.LargeParams) (x y : LargeTaps) :
    largeZ1 c (xorLarge x y) = largeZ1 c x ^^^ largeZ1 c y := by
  simp only [largeZ1, xorLarge, mixLeft_xor, mixRight_xor, xor_xor_xor_comm]

theorem largeZ2_xor (c : Config.LargeParams) (x y : LargeTaps) :
    largeZ2 c (xorLarge x y) = largeZ2 c x ^^^ largeZ2 c y := by
  simp only [largeZ2, xorLarge, shiftRightOnly_xor, mixRight_xor, xor_xor_xor_comm]

theorem largeNewWords_xor (x y : LargeTaps) :
    largeNewWords Config.large (xorLarge x y) =
      xorNew (largeNewWords Config.large x) (largeNewWords Config.large y) := by
  simp only [largeNewWords, largeZ0_xor, largeZ1_xor, largeZ2_xor, xorNew, mixLeft_xor, mixRight_xor,
    NewWords.mk.injEq]
  constructor <;> ac_rfl

/-! Tempering (R170). -/

/-- One pass of tempering, with its shift and its mask. -/
def maskedPass (t : ShiftAmount) (m : Word) (v : Word) : Word := v ^^^ (v.shl t &&& m)

theorem temper_eq_passes : temper = maskedPass Config.lSC Config.lTC ∘ maskedPass Config.lSB Config.lTB := rfl

theorem maskedPass_xor (t : ShiftAmount) (m a b : Word) :
    maskedPass t m (a ^^^ b) = maskedPass t m a ^^^ maskedPass t m b := by
  have hand : ∀ x y : Word, (x ^^^ y) &&& m = (x &&& m) ^^^ (y &&& m) := fun x y => by
    refine BitVec.eq_of_getLsbD_eq fun i _ => ?_
    simp only [BitVec.getLsbD_and, BitVec.getLsbD_xor, Bool.and_xor_distrib_right]
  simp only [maskedPass, shl_xor, hand, xor_xor_xor_comm]

theorem maskedPass_bijective {t : ShiftAmount} (ht : t ≠ 0) (m : Word) : Function.Bijective (maskedPass t m) :=
  bijective_of_linear (maskedPass_xor t m) fun _ h => eq_zero_of_eq_shl_and ht (BitVec.xor_eq_zero_iff.1 h)

/-- A pass leaves a bit that its mask does not cover. -/
theorem getLsbD_maskedPass {t : ShiftAmount} {m : Word} {i : Nat} (hm : m.getLsbD i = false) (v : Word) :
    (maskedPass t m v).getLsbD i = v.getLsbD i := by
  rw [maskedPass, BitVec.getLsbD_xor, BitVec.getLsbD_and, hm, Bool.and_false, Bool.xor_false]

theorem temper_xor (a b : Word) : temper (a ^^^ b) = temper a ^^^ temper b := by
  simp only [temper_eq_passes, Function.comp_apply, maskedPass_xor]

theorem temper_bijective : Function.Bijective temper :=
  (maskedPass_bijective (by decide) _).comp (maskedPass_bijective (by decide) _)

/-- Neither mask covers a bit of the low byte. -/
theorem getLsbD_temper_lowByte (y : Word) {i : Nat} (hi : i < 8) : (temper y).getLsbD i = y.getLsbD i := by
  have hlow : ∀ j < 8, Config.lTB.getLsbD j = false ∧ Config.lTC.getLsbD j = false := by decide
  obtain ⟨hB, hC⟩ := hlow i hi
  rw [temper_eq_passes, Function.comp_apply, getLsbD_maskedPass hC, getLsbD_maskedPass hB]

end Sys2Proof.Machine

open Sys2Proof Sys2Proof.Machine

/-- Settles O8: the kept bits and the corner cases are read off R100 bit by bit; the map is linear and sends only 0
to 0 (`mixRight_bijective`). -/
theorem mixRightKeepsTopBitsAndIsBijective : Obligations.MixRightKeepsTopBitsAndIsBijective := by
  unfold Obligations.MixRightKeepsTopBitsAndIsBijective
  refine ⟨fun t v => rfl, mixRight_zero_amount, mixRight_zero_word, mixRight_31,
    fun t _ v i hi _ => getLsbD_mixRight_of_ge v hi, fun t => mixRight_bijective, ?value⟩
  case value => decide

/-- Settles O9: as for `mixRight`, with the shift as a product modulo `2^32` (`shl_eq_ofNat_mul`). -/
theorem mixLeftKeepsLowBitsAndIsBijective : Obligations.MixLeftKeepsLowBitsAndIsBijective := by
  unfold Obligations.MixLeftKeepsLowBitsAndIsBijective
  refine ⟨fun t v => congrArg (v ^^^ ·) (shl_eq_ofNat_mul t v), mixLeft_zero_amount, mixLeft_zero_word, mixLeft_31,
    fun t _ v i => getLsbD_mixLeft_of_lt v, fun t => mixLeft_bijective, ?value⟩
  case value => decide

/-- Settles O11: shifts distribute over XOR, and so does the boundary mix of unit L, whose masks are complementary
(`largeZ0_xor`). -/
theorem stepsAreLinear : Obligations.StepsAreLinear := by
  unfold Obligations.StepsAreLinear
  exact ⟨mixRight_xor, mixLeft_xor, shiftRightOnly_xor, smallNewWords_xor, largeNewWords_xor⟩

/-- Settles O12: `Temper` is two passes of one form (`temper_eq_passes`), each linear and bijective and leaving the bits
outside its mask. -/
theorem temperIsLinearBijectiveAndKeepsTheLowByte : Obligations.TemperIsLinearBijectiveAndKeepsTheLowByte := by
  unfold Obligations.TemperIsLinearBijectiveAndKeepsTheLowByte
  refine ⟨fun y0 => ⟨_, rfl, rfl⟩, by decide, temper_xor, temper_bijective, fun y i => getLsbD_temper_lowByte y,
    ?examples⟩
  case examples => decide

end

section
/-! PROOF. O14: the sample as a number (R172, R174). -/

namespace Sys2Proof.Machine

theorem scale_eq (y : Word) : scale y = (y.toNat : Rat) / 4294967296 := by
  rw [scale, Word.zext]
  norm_num

theorem scale_nonneg (y : Word) : 0 ≤ scale y := by
  rw [scale_eq]
  positivity

theorem scale_lt_one (y : Word) : scale y < 1 := by
  have hlt : (y.toNat : Rat) < 4294967296 := by exact_mod_cast y.isLt
  rwa [scale_eq, div_lt_one (by norm_num)]

theorem scale_injective : Function.Injective scale := by
  intro y y' h
  have hnat : (y.toNat : Rat) = y'.toNat := by
    rw [scale_eq, scale_eq] at h
    exact (div_left_inj' (by norm_num)).1 h
  exact BitVec.eq_of_toNat_eq (Nat.cast_injective hnat)

/-- The pattern denotes the scaled word, and so determines the word. -/
theorem sampleBits_injective : Function.Injective sampleBits := by
  intro y y' h
  have hvalue : some (scale y) = some (scale y') := by
    rw [← binary64Value_sampleBits, ← binary64Value_sampleBits, h]
  exact scale_injective (Option.some_injective _ hvalue)

end Sys2Proof.Machine

open Sys2Proof Sys2Proof.Machine

/-- Settles O14: the range is that of a 32-bit number over `2^32`, and the pattern denotes that number exactly
(`binary64Value_sampleBits`). -/
theorem sampleIsTheExactScaledWord : Obligations.SampleIsTheExactScaledWord := by
  unfold Obligations.SampleIsTheExactScaledWord
  refine ⟨scale_eq, fun y => ⟨scale_nonneg y, scale_lt_one y⟩, sampleBits_injective, ?half, ?largest⟩
  case half => rw [scale_eq]; norm_num
  case largest => rw [scale_eq]; norm_num

end

section
/-! PROOF. O16, O17, O19, O20, O21, O23, O25, O26 and O29: one step of each unit, what it writes and what it leaves
(R110 to R113, R131 to R146). -/

namespace Sys2Proof.Machine

open Sys2Proof.Claims

/-! Two writes to an array. -/

theorem Memory.read_write_write_other (m : Memory) {a b c : Nat} (v v' : Word) (hb : a ≠ b) (hc : a ≠ c) :
    ((m.write b v).write c v').read a = m.read a := by
  rw [Memory.read_write_other _ _ hc, Memory.read_write_other _ _ hb]

/-- What stood at an address before it is written has no influence, whatever is written elsewhere in between. -/
theorem Memory.write_overwritten {m : Memory} (hm : m.wf) (a b : Nat) (old x new : Word) :
    ((m.write a old).write b x).write a new = (m.write b x).write a new := by
  refine Memory.ext_read ?_ ?_ fun k => ?_
  · exact Memory.write_wf _ _ _ (Memory.write_wf _ _ _ (Memory.write_wf _ _ _ hm))
  · exact Memory.write_wf _ _ _ (Memory.write_wf _ _ _ hm)
  · simp only [Memory.read_write]
    split_ifs <;> rfl

/-- The array read after a write at one address, as a function of the address. -/
theorem Memory.holds_write {R : Nat} {m : Memory} {w : Nat → Word} (h : m.Holds R w) (a : Nat) (v : Word) :
    (m.write a v).Holds R (Function.update w a v) := by
  intro k hk
  rw [Memory.read_write, Function.update_apply, h k hk]
  split_ifs <;> rfl

/-! Unit S. -/

/-- NEXTS writes at most the current and the boundary word of an instance, and answers once. -/
theorem execNexts_next {s t : State} (h : execNexts s = .next t) :
    (∃ r, t = s.answer r) ∨
    (s.unitS.constructed = true ∧ ∃ x r, t = State.answer { s with unitS := (s.unitS.after Config.small x).1 } r) := by
  rcases execNexts_cases s with ⟨-, e⟩ | ⟨hc, x, -, e⟩ | ⟨-, er, -, e⟩ <;> rw [e] at h
  · cases h; exact .inl ⟨_, rfl⟩
  · cases h; exact .inr ⟨hc, x, _, rfl⟩
  · rcases raiseAccess_cases .S er s with ⟨-, e'⟩ | ⟨_, -, e'⟩ <;> rw [e'] at h <;> cases h
    exact .inl ⟨_, rfl⟩

theorem UnitS.after_read_other (c : Config.SmallParams) (u : UnitS) (x : SmallTaps) {a : Nat}
    (h0 : a ≠ (smallAddrs c u.index).a0) (hR : a ≠ (smallAddrs c u.index).aR) :
    (u.after c x).1.words.read a = u.words.read a :=
  Memory.read_write_write_other _ _ _ h0 hR

/-! Unit L: the address forms. -/

theorem largeAddrs_inRange {i : Nat} (hi : i < Config.lR) : (largeAddrs (regionOf i) i).InRange := by
  have lt : ∀ x : Nat, 0 ≤ ((x % 624 : Nat) : Int) ∧ ((x % 624 : Nat) : Int) < Config.lR :=
    fun x => ⟨Int.natCast_nonneg _, Int.ofNat_lt.2 (Nat.mod_lt _ (by decide))⟩
  rw [largeAddrs_modular hi]
  exact ⟨⟨Int.natCast_nonneg _, Int.ofNat_lt.2 hi⟩, lt _, lt _, lt _, lt _, lt _⟩

/-- The six modular addresses are pairwise different: their distances from the index are. -/
theorem largeAddrs_nodup {i : Nat} (hi : i < Config.lR) :
    let a := largeAddrs (regionOf i) i
    [a.v0, a.vM1, a.vM2, a.vM3, a.vRm1, a.vRm2].Nodup := by
  have hlt : i < 624 := hi
  rw [largeAddrs_modular hi]
  simp only [List.nodup_cons, List.mem_cons, List.not_mem_nil, List.nodup_nil, Int.natCast_inj, not_or,
    not_false_eq_true, and_true]
  omega

/-! Unit L: what a case rule changes. -/

/-- A case rule leaves every word outside its two write addresses. -/
theorem UnitL.after_read_other (c : Config.LargeParams) {m : Mode} {u : UnitL} {x : LargeTaps}
    (hx : readLargeTaps u.words (largeAddrs m u.index) = .ok x) {a : Nat} (h0 : (a : Int) ≠ (largeAddrs m u.index).v0)
    (hR : (a : Int) ≠ (largeAddrs m u.index).vRm1) : (u.after c m x).1.words.read a = u.words.read a := by
  obtain ⟨⟨hv0, -⟩, -, -, -, ⟨hvR, -⟩, -⟩ := readLargeTaps_eq_ok hx
  exact Memory.read_write_write_other _ _ _ (by omega) (by omega)

/-- A case rule answers an error and changes nothing, or writes the unit and answers nothing. -/
theorem runCase_next {m : Mode} {s t : State} (h : runCase m s = .next t) :
    (∃ e : Status, e ≠ .ok ∧ t = s.answer ⟨e.code, 0#64⟩) ∨
    (∃ x, readLargeTaps s.unitL.words (largeAddrs m s.unitL.index) = .ok x ∧
      t = { s with unitL := (s.unitL.after Config.large m x).1 }) := by
  rcases runCase_cases m s with ⟨-, e⟩ | ⟨-, x, hx, e⟩ | ⟨-, er, -, e⟩ <;> rw [e] at h
  · cases h; exact .inl ⟨.notConstructed, nofun, rfl⟩
  · cases h; exact .inr ⟨x, hx, rfl⟩
  · rcases raiseAccess_cases .L er s with ⟨-, e'⟩ | ⟨_, -, e'⟩ <;> rw [e'] at h <;> cases h
    exact .inl ⟨.indexOutOfRange, nofun, rfl⟩

/-- NEXTL answers an error and changes nothing, or runs the case rule of its mode, marks the start and answers. -/
theorem execNextl_next {s t : State} (h : execNextl s = .next t) :
    (∃ r, t = s.answer r) ∨
    (s.unitL.constructed = true ∧
      ∃ x r, readLargeTaps s.unitL.words (largeAddrs s.unitL.mode s.unitL.index) = .ok x ∧
        t = State.answer { s with unitL := (s.unitL.after Config.large s.unitL.mode x).1.markStarted } r) := by
  rcases execNextl_cases s with ⟨-, e⟩ | ⟨hc, x, hx, e⟩ | ⟨-, er, -, e⟩ <;> rw [e] at h
  · cases h; exact .inl ⟨_, rfl⟩
  · cases h; exact .inr ⟨hc, x, _, hx, rfl⟩
  · rcases raiseAccess_cases .L er s with ⟨-, e'⟩ | ⟨_, -, e'⟩ <;> rw [e'] at h <;> cases h
    exact .inl ⟨_, rfl⟩

/-! Unit L: the step at addresses written out. -/

/-- The words a step writes, from those at the addresses it reads (R132 to R135). -/
theorem largeNewWords_largeTapsAt (w : Nat → Word) (a0 a1 a2 a3 aR1 aR2 : Nat) :
    largeNewWords Config.large (largeTapsAt w a0 a1 a2 a3 aR1 aR2) =
      ⟨largeNewV1At (w a0) (w a1) (w a2) (w a3),
        largeNewV0At (w a0) (w a1) (w a2) (w a3) (w aR1) (w aR2)⟩ := rfl

theorem runCase_of_advance_ok {m : Mode} {s : State} {u : UnitL} {y : Word} (hc : s.unitL.constructed = true)
    (h : s.unitL.advance Config.large m = .ok (u, y)) : runCase m s = .next { s with unitL := u } := by
  simp [runCase, hc, h]

/-- A case rule whose form gives the addresses `a0 … aR2`, all in the array (R137 to R142). -/
theorem runCase_of_addrs {m : Mode} {s : State} {w : Nat → Word} (hc : s.unitL.constructed = true)
    (hw : s.unitL.words.Holds Config.lR w) {a0 a1 a2 a3 aR1 aR2 : Nat}
    (ha : largeAddrs m s.unitL.index = ⟨a0, a1, a2, a3, aR1, aR2⟩)
    (hlt : a0 < 624 ∧ a1 < 624 ∧ a2 < 624 ∧ a3 < 624 ∧ aR1 < 624 ∧ aR2 < 624) :
    runCase m s = .next (caseResult s w a0 a1 a2 a3 aR1 aR2 (nextIndex m s.unitL.index)
      (nextMode m (nextIndex m s.unitL.index))) := by
  obtain ⟨h0, h1, h2, h3, hR1, hR2⟩ := hlt
  have hread := readLargeTaps_of_holds hw h0 h1 h2 h3 hR1 hR2
  rw [← ha] at hread
  have hadvance := UnitL.advance_of_taps Config.large hread
  rw [UnitL.after, ha] at hadvance
  exact runCase_of_advance_ok hc hadvance

theorem runCase_of_offRegion {m : Mode} {s : State} {w : Nat → Word} (hc : s.unitL.constructed = true)
    (hw : s.unitL.words.Holds Config.lR w) (hoff : Config.lR ≤ s.unitL.index ∨ m ≠ regionOf s.unitL.index) :
    runCase m s = .next (s.answer ⟨6#4, 0#64⟩) := by
  simp only [runCase, hc, UnitL.advance_of_offRegion Config.large hw hoff]
  rfl

/-- The unit after the step of the region, on the words at the modular addresses (R146). -/
theorem UnitL.after_largeTapsOf {u : UnitL} (hi : u.index < Config.lR) (w : Nat → Word) :
    (u.after Config.large (regionOf u.index) (largeTapsOf w u.index)).1 =
      largeUnitAfter u w u.index ((u.index + 70) % 624) ((u.index + 179) % 624) ((u.index + 449) % 624)
        ((u.index + 623) % 624) ((u.index + 622) % 624) ((u.index + 623) % 624)
        (regionOf ((u.index + 623) % 624)) := by
  rw [UnitL.after_modular Config.large hi, largeTapsOf, largeNewWords_largeTapsAt]
  rfl

/-! Unit L: the dead bits. -/

/-- Of the boundary word a step uses bit 31 alone (R132, D10). -/
theorem largeNewWords_replace_vRm1 (x : LargeTaps) {v : Word} (hbit : v.getLsbD 31 = x.vRm1.getLsbD 31) :
    largeNewWords Config.large { x with vRm1 := v } = largeNewWords Config.large x := by
  have hmask : Config.large.maskL = BitVec.twoPow 32 31 := by decide
  have hz0 : largeZ0 Config.large { x with vRm1 := v } = largeZ0 Config.large x := by
    simp only [largeZ0, hmask, BitVec.and_twoPow, hbit]
  simp only [largeNewWords, hz0, largeZ1, largeZ2]

/-- Another word at the boundary address is read there and nowhere else. -/
theorem largeTapsOf_update_boundary (w : Nat → Word) {i : Nat} (hi : i < Config.lR) (v : Word) :
    largeTapsOf (Function.update w ((i + 623) % 624) v) i = { largeTapsOf w i with vRm1 := v } := by
  have hlt : i < 624 := hi
  have hother : ∀ a, a ≠ (i + 623) % 624 → Function.update w ((i + 623) % 624) v a = w a :=
    fun a ha => by rw [Function.update_apply, if_neg ha]
  simp only [largeTapsOf, largeTapsAt, Function.update_self, LargeTaps.mk.injEq, true_and]
  refine ⟨hother _ ?_, hother _ ?_, hother _ ?_, hother _ ?_, hother _ ?_⟩ <;> omega

theorem UnitL.write_ready {u : UnitL} (h : u.Ready) {a : Nat} (ha : a < Config.lR) (v : Word) :
    UnitL.Ready { u with words := u.words.write a v } := by
  obtain ⟨hc, hi, hmode, hfull, -⟩ := h
  exact ⟨hc, hi, hmode, fun _ => Memory.full_write (hfull hc) ha v, fun hf => absurd (hc.symm.trans hf) nofun,
    fun _ => hc⟩

/-- The step overwrites the boundary word and uses only its bit 31. -/
theorem UnitL.after_write_boundary {u : UnitL} (hi : u.index < Config.lR) (hm : u.words.wf) (v : Word)
    {x x' : LargeTaps} (hx : largeNewWords Config.large x' = largeNewWords Config.large x) :
    (UnitL.after Config.large (regionOf u.index) { u with words := u.words.write ((u.index + 623) % 624) v } x').1 =
      (u.after Config.large (regionOf u.index) x).1 := by
  have hleft := UnitL.after_modular Config.large
    (u := { u with words := u.words.write ((u.index + 623) % 624) v }) hi x'
  rw [hleft, UnitL.after_modular Config.large hi, hx, Memory.write_overwritten hm]

end Sys2Proof.Machine

open Sys2Proof Sys2Proof.Machine Sys2Proof.Claims

/-- Settles O16: an answer changes no unit, and a step of unit S writes at two addresses (`UnitS.after_read_other`). -/
theorem nextsFrame : Obligations.NextsFrame := by
  unfold Obligations.NextsFrame
  intro s t h
  rcases execNexts_next h with ⟨r, rfl⟩ | ⟨hc, x, r, rfl⟩
  · exact ⟨fun _ _ _ => rfl, rfl, rfl, rfl, fun _ => rfl⟩
  · exact ⟨fun a => UnitS.after_read_other Config.small s.unitS x, rfl, rfl, rfl,
      fun hf => absurd (hc.symm.trans hf) nofun⟩

/-- Settles O17: distances that differ modulo 32. -/
theorem smallStepAddressesAreDistinct : Obligations.SmallStepAddressesAreDistinct := by
  unfold Obligations.SmallStepAddressesAreDistinct
  intro i
  refine ⟨rfl, ?bounded, ?distinct⟩
  case bounded => simp [smallAddrs, Nat.mod_lt]
  case distinct =>
    simp only [smallAddrs_eq, Config.small, List.nodup_cons, List.mem_cons, List.not_mem_nil, List.nodup_nil,
      not_or, not_false_eq_true, and_true]
    omega

/-- Settles O19: on its region each form gives the addresses of its rule (`runCase_of_addrs`), and `nextIndex` and
`nextMode` are the control state it names. -/
theorem caseRulesComputeTheStep : Obligations.CaseRulesComputeTheStep := by
  unfold Obligations.CaseRulesComputeTheStep
  refine ⟨rfl, fun s w hc hw => ⟨
    fun h => runCase_of_addrs (m := .case1) hc hw (by rw [h]; rfl) (by decide),
    fun h => runCase_of_addrs (m := .case2) hc hw (by rw [h]; rfl) (by decide),
    fun h h' => runCase_of_addrs (m := .case3) hc hw ?case3 (by omega),
    fun h h' => runCase_of_addrs (m := .case4) hc hw ?case4 (by omega),
    fun h h' => runCase_of_addrs (m := .case5) hc hw ?case5 (by omega),
    fun h h' => runCase_of_addrs (m := .case6) hc hw ?case6 (by omega)⟩⟩
  case case3 | case4 | case5 | case6 =>
    simp only [largeAddrs, LargeAddrs.mk.injEq, true_and, Config.lM1, Config.lM2, Config.lM3, Config.lC1, Config.lC2,
      Config.lC3]
    omega

/-- Settles O20: the two outcomes of `runCase_next`. -/
theorem caseRulesFrame : Obligations.CaseRulesFrame := by
  unfold Obligations.CaseRulesFrame
  intro m s t h
  rw [exec_caseRule] at h
  rcases runCase_next h with ⟨e, he, rfl⟩ | ⟨x, hx, rfl⟩
  · exact ⟨fun _ _ _ => rfl, rfl, rfl, rfl, rfl, rfl, .inr ⟨rfl, _, mt (Status.code_eq_zero_iff e).1 he, rfl⟩⟩
  · exact ⟨fun a => UnitL.after_read_other Config.large hx, rfl, rfl, rfl, rfl, rfl, .inl rfl⟩

/-- Settles O21: off its region some address of the form leaves the array (`runCase_of_offRegion`). -/
theorem caseRuleOutsideItsRegionIsAnError : Obligations.CaseRuleOutsideItsRegionIsAnError := by
  unfold Obligations.CaseRuleOutsideItsRegionIsAnError
  refine ⟨fun m s w hc hw hoff => ?_, fun m s hc => ?_⟩ <;> rw [exec_caseRule]
  · exact runCase_of_offRegion hc hw hoff
  · exact runCase_of_not_constructed m hc

/-- Settles O23: the two outcomes of `execNextl_next`. -/
theorem nextlFrame : Obligations.NextlFrame := by
  unfold Obligations.NextlFrame
  intro s t h
  rcases execNextl_next h with ⟨r, rfl⟩ | ⟨hc, x, r, hx, rfl⟩
  · exact ⟨fun _ _ _ => rfl, rfl, rfl, rfl, rfl, .inl rfl⟩
  · exact ⟨fun a => UnitL.after_read_other Config.large hx, rfl, rfl, rfl, rfl, .inr ⟨hc, rfl⟩⟩

/-- Settles O25: NEXTL on its region (`execNextl_of_holds`) in modular form (`UnitL.after_largeTapsOf`). -/
theorem sixCasesEqualTheModularRecurrence : Obligations.SixCasesEqualTheModularRecurrence := by
  unfold Obligations.SixCasesEqualTheModularRecurrence
  intro s w h hw
  have ⟨_, hi, _⟩ := h
  have hstep := execNextl_of_holds h hw
  rwa [UnitL.after_largeTapsOf hi] at hstep

/-- Settles O26: a form that fits pins its region (`region_of_inRange`), and there it is the modular one
(`largeAddrs_modular`). -/
theorem addressFormsFitExactlyTheirRegion : Obligations.AddressFormsFitExactlyTheirRegion := by
  unfold Obligations.AddressFormsFitExactlyTheirRegion
  refine ⟨fun m i => ⟨fun h => ?_, ?_⟩, fun i hi => ⟨largeAddrs_modular hi, largeAddrs_nodup hi⟩⟩
  · obtain ⟨hi, hm⟩ := region_of_inRange (m := m) (i := i) (by simpa [LargeAddrs.InRange] using h)
    exact ⟨hi, hm.symm⟩
  · rintro ⟨hi, rfl⟩
    simpa [LargeAddrs.InRange] using largeAddrs_inRange hi

/-- Settles O29: the words written are the same (`largeNewWords_update_boundary`), and the boundary word is overwritten
(`UnitL.after_write_boundary`). -/
theorem lowBitsOfTheBoundaryWordAreDead : Obligations.LowBitsOfTheBoundaryWordAreDead := by
  unfold Obligations.LowBitsOfTheBoundaryWordAreDead
  intro s v v' h hv hbit
  obtain ⟨w, hw⟩ := UnitL.exists_holds h
  have ⟨hc, hi, hmode, hfull, _⟩ := h
  have hlt : (s.unitL.index + 623) % 624 < Config.lR := Nat.mod_lt _ (by decide)
  obtain rfl : w ((s.unitL.index + 623) % 624) = v := Option.some_injective _ ((hw _ hlt).symm.trans hv)
  have hw' := Memory.holds_write hw ((s.unitL.index + 623) % 624) v'
  have hnew := largeNewWords_replace_vRm1 (largeTapsOf w s.unitL.index) hbit
  rw [← largeTapsOf_update_boundary w hi] at hnew
  have hwf := Memory.wf_of_full (hfull hc)
  have hready := UnitL.write_ready h hlt v'
  calc _ = _ := execNextl_of_holds hready hw'
    _ = _ := by rw [UnitL.after_write_boundary hi hwf v' hnew, hnew]
    _ = _ := (execNextl_of_holds h hw).symm
end

section
/-! PROOF. O18, O27, O28 and O30: any number of NEXTS or NEXTL from a legal instance, as the iterates of one total step
(R114 to R116, R144, R148, R149). -/

namespace Sys2Proof.Machine

/-! Repetition. -/

/-- Where `f` is what the instruction does on the states of `P`, and stays in `P`, repeating the instruction iterates
`f`. -/
theorem runRep_eq_iterate {i : Instr} {f : State → State} {P : State → Prop}
    (hf : ∀ s, P s → exec i s = .next (f s)) (hP : ∀ s, P s → P (f s)) {s : State} (hs : P s) (k : Nat) :
    runRep i k s = .next (f^[k] s) := by
  induction k with
  | zero => rfl
  | succ k ih =>
    rw [Function.iterate_succ_apply', runRep_succ i k s _ ih]
    exact hf _ (Function.Iterate.rec P hs hP k)

/-- The responses of the states along an iteration that answers once each time. -/
theorem responses_iterate {f : State → State} {r : State → Response}
    (hr : ∀ s, (f s).responses = s.responses ++ [r s]) (s : State) (k : Nat) :
    (f^[k] s).responses = s.responses ++ (List.range k).map fun j => r (f^[j] s) := by
  induction k with
  | zero => exact (List.append_nil _).symm
  | succ k ih =>
    rw [Function.iterate_succ_apply', hr, ih, List.range_succ, List.map_append, List.append_assoc]
    rfl

/-- Answers that are all OK, counted. -/
theorem ok_responses_iterate {f : State → State} {sample : State → BitVec 64}
    (hr : ∀ s, (f s).responses = s.responses ++ [⟨0#4, sample s⟩]) (s : State) (k : Nat) :
    ∃ rs, (f^[k] s).responses = s.responses ++ rs ∧ rs.length = k ∧ ∀ r ∈ rs, r.status = 0#4 :=
  ⟨_, responses_iterate hr s k, by simp, by simp⟩

/-- Answers that are all the same. -/
theorem replicate_responses_iterate {f : State → State} {r : State → Response} {P : State → Prop} {r₀ : Response}
    (hr : ∀ s, (f s).responses = s.responses ++ [r s]) (hP : ∀ s, P s → P (f s)) (hr₀ : ∀ s, P s → r s = r₀)
    {s : State} (hs : P s) (k : Nat) : (f^[k] s).responses = s.responses ++ List.replicate k r₀ := by
  rw [responses_iterate hr]
  congr 1
  refine List.eq_replicate_iff.2 ⟨by simp, fun x hx => ?_⟩
  obtain ⟨j, -, rfl⟩ := List.mem_map.1 hx
  exact hr₀ _ (Function.Iterate.rec P hs hP j)

/-! The value at every address, as a function. -/

/-- The word at an address, 0 where the array holds no value: there no legal step reads (R231). -/
def Memory.valueAt (m : Memory) (a : Nat) : Word := (m.read a).getD 0#32

theorem Memory.holds_valueAt {R : Nat} {m : Memory} (h : m.full R) : m.Holds R m.valueAt := by
  intro a ha
  obtain ⟨v, hv⟩ := Memory.exists_read_of_full h ha
  rw [Memory.valueAt, hv, Option.getD_some]

theorem Memory.valueAt_of_allZero {m : Memory} (h : m.allZero) (a : Nat) : m.valueAt a = 0#32 := by
  rw [Memory.valueAt]
  cases hv : m.read a with
  | none => rfl
  | some v => exact Memory.read_of_allZero h hv

/-! Unit S: NEXTS as a total step. -/

/-- The step of unit S on the words it holds, with its output word. -/
def UnitS.draw (u : UnitS) : UnitS × Word := u.after Config.small (smallTapsOf Config.small u.words.valueAt u.index)

/-- What NEXTS does on a legal instance. -/
def State.afterNexts (s : State) : State :=
  State.answer { s with unitS := s.unitS.draw.1 } ⟨0#4, sampleBits s.unitS.draw.2⟩

theorem exec_nexts_of_ready (s : State) (h : s.unitS.Ready) : exec .nexts s = .next s.afterNexts := by
  obtain ⟨hc, -, hfull, -⟩ := h
  exact execNexts_of_holds hc (Memory.holds_valueAt (hfull hc))

theorem State.afterNexts_ready (s : State) (h : s.unitS.Ready) : s.afterNexts.unitS.Ready :=
  UnitS.after_ready Config.small h _

theorem State.afterNexts_index (s : State) : s.afterNexts.unitS.index = (s.unitS.index + 31) % 32 := rfl

theorem State.afterNexts_iterate_index (s : State) (hi : s.unitS.index < Config.sR) (k : Nat) :
    (State.afterNexts^[k] s).unitS.index = (s.unitS.index + 31 * k) % 32 := by
  induction k with
  | zero => exact (Nat.mod_eq_of_lt hi).symm
  | succ k ih => rw [Function.iterate_succ_apply', State.afterNexts_index, ih]; omega

/-- The zero taps give zero words (R116). -/
theorem UnitS.draw_of_allZero {u : UnitS} (h : u.words.allZero) :
    u.draw.1.words.allZero ∧ u.draw.2 = 0#32 := by
  have hnew : smallNewWords Config.small (smallTapsOf Config.small u.words.valueAt u.index) = ⟨0#32, 0#32⟩ := by
    simp only [smallTapsOf, Memory.valueAt_of_allZero h]
    decide
  simp only [UnitS.draw, UnitS.after, hnew]
  exact ⟨Memory.allZero_write (Memory.allZero_write h _) _, trivial⟩

theorem State.afterNexts_allZero (s : State) (h : s.unitS.words.allZero) : s.afterNexts.unitS.words.allZero :=
  (UnitS.draw_of_allZero h).1

theorem sampleBits_zero : sampleBits 0#32 = 0#64 := rfl

/-! Unit L: NEXTL as a total step. -/

/-- The step of unit L on its region and the words it holds, with its raw output word. -/
def UnitL.draw (u : UnitL) : UnitL × Word :=
  u.after Config.large (regionOf u.index) (largeTapsOf u.words.valueAt u.index)

/-- What NEXTL does on a legal instance. -/
def State.afterNextl (s : State) : State :=
  State.answer { s with unitL := s.unitL.draw.1.markStarted }
    ⟨0#4, sampleBits (outputWord s.unitL.tempering s.unitL.draw.2)⟩

theorem exec_nextl_of_ready (s : State) (h : s.unitL.Ready) : exec .nextl s = .next s.afterNextl := by
  have ⟨hc, _, _, hfull, _⟩ := h
  exact execNextl_of_holds h (Memory.holds_valueAt (hfull hc))

theorem State.afterNextl_ready (s : State) (h : s.unitL.Ready) : s.afterNextl.unitL.Ready :=
  UnitL.markStarted_ready (UnitL.after_ready Config.large h _)

theorem State.afterNextl_index (s : State) (hi : s.unitL.index < Config.lR) :
    s.afterNextl.unitL.index = (s.unitL.index + 623) % 624 := nextIndex_modular hi

theorem State.afterNextl_iterate_index (s : State) (hi : s.unitL.index < Config.lR) (k : Nat) :
    (State.afterNextl^[k] s).unitL.index = (s.unitL.index + 623 * k) % 624 := by
  induction k with
  | zero => exact (Nat.mod_eq_of_lt hi).symm
  | succ k ih =>
    have hlt : (State.afterNextl^[k] s).unitL.index < Config.lR := ih ▸ Nat.mod_lt _ (by decide)
    rw [Function.iterate_succ_apply', State.afterNextl_index _ hlt, ih]
    omega

/-- The zero taps give zero words (R148). -/
theorem UnitL.draw_of_allZero {u : UnitL} (h : u.words.allZero) :
    u.draw.1.words.allZero ∧ u.draw.2 = 0#32 := by
  have hnew : largeNewWords Config.large (largeTapsOf u.words.valueAt u.index) = ⟨0#32, 0#32⟩ := by
    simp only [largeTapsOf, largeTapsAt, Memory.valueAt_of_allZero h]
    decide
  simp only [UnitL.draw, UnitL.after, hnew]
  exact ⟨Memory.allZero_write (Memory.allZero_write h _) _, trivial⟩

theorem State.afterNextl_allZero (s : State) (h : s.unitL.words.allZero) : s.afterNextl.unitL.words.allZero :=
  (UnitL.draw_of_allZero h).1

theorem sampleBits_outputWord_zero (b : Bool) : sampleBits (outputWord b 0#32) = 0#64 := by
  cases b <;> decide

/-! Unit L with the tempering flag at a given value (R149). -/

/-- `s` with the tempering flag set or cleared. -/
def State.withTempering (b : Bool) (s : State) : State := s.withUnitL (s.unitL.setTempering b)

/-- The raw output words of `k` consecutive NEXTL. -/
def State.rawWords (s : State) (k : Nat) : List Word :=
  (List.range k).map fun j => (State.afterNextl^[j] s).unitL.draw.2

/-- A step keeps the flag, and what it does to the unit does not depend on it. -/
theorem State.afterNextl_unitL_setTempering {s s' : State} {b : Bool} (h : s'.unitL = s.unitL.setTempering b) :
    s'.afterNextl.unitL = s.afterNextl.unitL.setTempering b := by
  simp only [State.afterNextl, State.answer_unitL, h]
  rfl

theorem State.afterNextl_iterate_unitL (b : Bool) (s : State) (k : Nat) :
    (State.afterNextl^[k] (s.withTempering b)).unitL = (State.afterNextl^[k] s).unitL.setTempering b := by
  induction k with
  | zero => rfl
  | succ k ih =>
    rw [Function.iterate_succ_apply', Function.iterate_succ_apply']
    exact State.afterNextl_unitL_setTempering ih

/-- The samples are those of the raw words, tempered where the flag is set. -/
theorem State.afterNextl_iterate_responses (b : Bool) (s : State) (k : Nat) :
    (State.afterNextl^[k] (s.withTempering b)).responses =
      s.responses ++ (s.rawWords k).map fun y => ⟨0#4, sampleBits (outputWord b y)⟩ := by
  rw [responses_iterate (f := State.afterNextl) (fun _ => rfl), State.rawWords, List.map_map]
  simp only [State.afterNextl_iterate_unitL]
  rfl

theorem runRep_nextl_withTempering (b : Bool) {s : State} (h : s.unitL.Ready) (k : Nat) :
    runRep .nextl k (s.withTempering b) = .next (State.afterNextl^[k] (s.withTempering b)) :=
  runRep_eq_iterate (s := s.withTempering b) exec_nextl_of_ready State.afterNextl_ready h k

end Sys2Proof.Machine

open Sys2Proof Sys2Proof.Machine

/-- Settles O18: the run iterates one total step (`runRep_eq_iterate`), which moves the index by 31 modulo 32. -/
theorem nextsIndexCycle : Obligations.NextsIndexCycle := by
  unfold Obligations.NextsIndexCycle
  intro s k h
  have ⟨_, hi, _⟩ := h
  have hlt : s.unitS.index < 32 := hi
  have hindex := s.afterNexts_iterate_index hi k
  obtain ⟨rs, hanswers⟩ := ok_responses_iterate (f := State.afterNexts) (fun _ => rfl) s k
  refine ⟨State.afterNexts^[k] s, rs, runRep_eq_iterate exec_nexts_of_ready State.afterNexts_ready h k,
    Function.Iterate.rec _ h State.afterNexts_ready k, hindex, ?period, hanswers⟩
  case period => rw [hindex]; omega

/-- Settles O27: as for unit S, with 623 modulo 624; the mode is the region of the index throughout, and the regions are
counted over one cycle. -/
theorem modeCycleHasPeriod624 : Obligations.ModeCycleHasPeriod624 := by
  unfold Obligations.ModeCycleHasPeriod624
  refine ⟨fun s k h => ?run, ?count⟩
  case run =>
    have ⟨_, hi, hmode, _⟩ := h
    have hlt : s.unitL.index < 624 := hi
    have hindex := s.afterNextl_iterate_index hi k
    have hready : (State.afterNextl^[k] s).unitL.Ready := Function.Iterate.rec _ h State.afterNextl_ready k
    have ⟨_, _, hmode', _⟩ := hready
    obtain ⟨rs, hanswers⟩ := ok_responses_iterate (f := State.afterNextl) (fun _ => rfl) s k
    refine ⟨State.afterNextl^[k] s, rs, runRep_eq_iterate exec_nextl_of_ready State.afterNextl_ready h k,
      hready, hindex, ?period, hanswers⟩
    case period =>
      have hcontrol : (State.afterNextl^[k] s).unitL.index = s.unitL.index →
          (State.afterNextl^[k] s).unitL.mode = s.unitL.mode := fun he => by rw [hmode', hmode, he]
      rw [and_iff_left_of_imp hcontrol, hindex]
      omega
  case count => decide +kernel

/-- Settles O28: both runs go through the units of the run of `s` itself with the flag at their own value
(`State.afterNextl_iterate_unitL`), so that they draw the same words. -/
theorem temperingTogglesOutputOnly : Obligations.TemperingTogglesOutputOnly := by
  unfold Obligations.TemperingTogglesOutputOnly
  intro s k h
  refine ⟨_, _, s.rawWords k, runRep_nextl_withTempering false h k, runRep_nextl_withTempering true h k, ?units, ?length,
    s.afterNextl_iterate_responses false k, s.afterNextl_iterate_responses true k⟩
  case units => rw [State.afterNextl_iterate_unitL, State.afterNextl_iterate_unitL]; rfl
  case length => rw [State.rawWords, List.length_map, List.length_range]

/-- Settles O30: a step on words that are all 0 writes and draws 0 (`UnitS.draw_of_allZero`, `UnitL.draw_of_allZero`). -/
theorem zeroStateStaysZero : Obligations.ZeroStateStaysZero := by
  unfold Obligations.ZeroStateStaysZero
  refine ⟨fun s k h hz => ⟨State.afterNexts^[k] s, runRep_eq_iterate exec_nexts_of_ready State.afterNexts_ready h k,
      Function.Iterate.rec _ hz State.afterNexts_allZero k, ?small⟩,
    fun s k h hz => ⟨State.afterNextl^[k] s, runRep_eq_iterate exec_nextl_of_ready State.afterNextl_ready h k,
      Function.Iterate.rec _ hz State.afterNextl_allZero k, ?large⟩⟩
  case small =>
    exact replicate_responses_iterate (fun _ => rfl) State.afterNexts_allZero
      (fun s hs => by rw [(UnitS.draw_of_allZero hs).2, sampleBits_zero]) hz k
  case large =>
    exact replicate_responses_iterate (fun _ => rfl) State.afterNextl_allZero
      (fun s hs => by rw [(UnitL.draw_of_allZero hs).2, sampleBits_outputWord_zero]) hz k

end

section
/-! PROOF. O35, O37, O42, O43, O44, O45 and O46: the tempering switch over several commands, the order of commands on
different units, the invariant, and the reset event (R20, R30 to R32, R58, R182, R208, R230). -/

namespace Sys2Proof.Machine

/-! What a step of either unit leaves (R30). -/

@[simp] theorem UnitS.after_constructed (c : Config.SmallParams) (u : UnitS) (x : SmallTaps) :
    (u.after c x).1.constructed = u.constructed := rfl

@[simp] theorem UnitL.after_tempering (c : Config.LargeParams) (m : Mode) (u : UnitL) (x : LargeTaps) :
    (u.after c m x).1.tempering = u.tempering := rfl

@[simp] theorem UnitL.after_constructed (c : Config.LargeParams) (m : Mode) (u : UnitL) (x : LargeTaps) :
    (u.after c m x).1.constructed = u.constructed := rfl

@[simp] theorem UnitL.after_started (c : Config.LargeParams) (m : Mode) (u : UnitL) (x : LargeTaps) :
    (u.after c m x).1.started = u.started := rfl

/-- Where a local meaning gives a next state, it has one effect on every state that agrees on its part. -/
theorem LocalTo.exists_effect {U : Type} {part : State → U} {put : U → State → State} {f : State → Result}
    {s t : State} (hf : LocalTo part put f (part s)) (h : f s = .next t) :
    ∃ u rs, ∀ s', part s' = part s → f s' = .next ((put u s').respond rs) := by
  rcases hf with heffect | ⟨r, hfault⟩
  · exact heffect
  · rw [hfault s rfl] at h
    cases h

/-! The canonical form of the arrays of a legal state (R28). -/

theorem UnitS.words_wf {u : UnitS} (h : u.Legal) : u.words.wf := by
  obtain ⟨-, hfull, hempty⟩ := h
  cases hc : u.constructed with
  | true => exact Memory.wf_of_full (hfull hc)
  | false => rw [hempty hc]; exact List.Pairwise.nil

theorem UnitL.words_wf {u : UnitL} (h : u.Legal) : u.words.wf := by
  obtain ⟨-, -, hfull, hempty, -⟩ := h
  cases hc : u.constructed with
  | true => exact Memory.wf_of_full (hfull hc)
  | false => rw [hempty hc]; exact List.Pairwise.nil

/-! The invariant (R31, R32, R208). -/

theorem UnitS.reset_legal : UnitS.reset.Legal := by decide

theorem UnitL.reset_legal : UnitL.reset.Legal := by decide

/-- A case rule that gives a unit was on its region, and leaves a legal instance. -/
theorem UnitL.after_ready_of_read {m : Mode} {u : UnitL} {x : LargeTaps} (h : u.Ready)
    (hx : readLargeTaps u.words (largeAddrs m u.index) = .ok x) : (u.after Config.large m x).1.Ready := by
  obtain ⟨-, rfl⟩ := region_of_inRange (readLargeTaps_eq_ok hx)
  exact UnitL.after_ready Config.large h x

theorem exec_keeps_inv {i : Instr} {s t : State} (hs : s.Inv) (h : exec i s = .next t) : t.Inv := by
  obtain ⟨hS, hL⟩ := hs
  rcases exec_next_cases h with ⟨e, -, -, rfl⟩ | ⟨ws, -, hl, rfl⟩ | ⟨b, ws, -, hl, rfl⟩ | ⟨b, -, -, -, rfl⟩ |
    ⟨-, hc, x, -, rfl⟩ | ⟨-, hc, x, hx, rfl⟩ | ⟨m, -, hc, x, hx, rfl⟩
  · exact ⟨hS, hL⟩
  · exact ⟨(UnitS.construct_ready hl).2, hL⟩
  · exact ⟨hS, (UnitL.construct_ready b hl).2⟩
  · exact ⟨hS, UnitL.setTempering_legal b hL⟩
  · exact ⟨(UnitS.after_ready Config.small ⟨hc, hS⟩ x).2, hL⟩
  · exact ⟨hS, (UnitL.markStarted_ready (UnitL.after_ready_of_read ⟨hc, hL⟩ hx)).2⟩
  · exact ⟨hS, (UnitL.after_ready_of_read ⟨hc, hL⟩ hx).2⟩

theorem step_keeps_inv {s t : State} (hs : s.Inv) (h : step s = .next t) : t.Inv := by
  rcases step_next_cases h with ⟨rest, -, rfl⟩ | ⟨-, rfl⟩ | ⟨i, used, -, -, he⟩
  · exact ⟨UnitS.reset_legal, UnitL.reset_legal⟩
  · exact hs
  · exact exec_keeps_inv (s := s.consume used) hs he

/-- A command in a legal state gives a next state: it neither faults nor is refused (R209). -/
theorem command_completes {i : Instr} {s : State} (hs : s.Inv) (hi : i.isCommand = true) :
    ∃ t, exec i s = .next t := by
  obtain ⟨hS, hL⟩ := hs
  rcases caseRule_or i with ⟨seed, rfl⟩ | ⟨b, seed, rfl⟩ | ⟨b, rfl⟩ | rfl | rfl | ⟨m, rfl⟩
  · rcases execSeeds_cases seed s with ⟨-, e⟩ | ⟨ws, -, -, e⟩ | ⟨ws, -, -, e⟩ <;> exact ⟨_, e⟩
  · rcases execSeedl_cases b seed s with ⟨-, e⟩ | ⟨ws, -, -, e⟩ | ⟨ws, -, -, e⟩ <;> exact ⟨_, e⟩
  · rcases execTemper_cases b s with ⟨-, e⟩ | ⟨-, -, e⟩ | ⟨-, -, e⟩ <;> exact ⟨_, e⟩
  · cases hc : s.unitS.constructed with
    | false => exact ⟨_, execNexts_of_not_constructed hc⟩
    | true => exact ⟨_, exec_nexts_of_ready s ⟨hc, hS⟩⟩
  · cases hc : s.unitL.constructed with
    | false => exact ⟨_, execNextl_of_not_constructed hc⟩
    | true => exact ⟨_, exec_nextl_of_ready s ⟨hc, hL⟩⟩
  · cases m <;> cases hi

/-! The flags `constructed` (R28, R30). -/

/-- No instruction clears a `constructed` flag. -/
theorem exec_keeps_constructed {i : Instr} {s t : State} (h : exec i s = .next t) :
    (s.unitS.constructed = true → t.unitS.constructed = true) ∧
      (s.unitL.constructed = true → t.unitL.constructed = true) := by
  rcases exec_next_cases h with ⟨e, -, -, rfl⟩ | ⟨ws, -, -, rfl⟩ | ⟨b, ws, -, -, rfl⟩ | ⟨b, -, -, -, rfl⟩ |
    ⟨-, -, x, -, rfl⟩ | ⟨-, -, x, -, rfl⟩ | ⟨m, -, -, x, -, rfl⟩
  · exact ⟨id, id⟩
  · exact ⟨fun _ => rfl, id⟩
  · exact ⟨id, fun _ => rfl⟩
  · exact ⟨id, id⟩
  · exact ⟨id, id⟩
  · exact ⟨id, id⟩
  · exact ⟨id, id⟩

/-- Only a reset event clears one (R230). -/
theorem step_keeps_constructed {s t : State} (h : step s = .next t) :
    (∃ rest, s.inputs = .reset :: rest) ∨
      (s.unitS.constructed = true → t.unitS.constructed = true) ∧
        (s.unitL.constructed = true → t.unitL.constructed = true) := by
  rcases step_next_cases h with ⟨rest, hr, -⟩ | ⟨-, rfl⟩ | ⟨i, used, -, -, he⟩
  · exact .inl ⟨rest, hr⟩
  · exact .inr ⟨id, id⟩
  · exact .inr (exec_keeps_constructed (s := s.consume used) he)

theorem step_of_reset {s : State} {rest : List HostInput} (h : s.inputs = .reset :: rest) :
    step s = .next s.takeReset := by
  rw [step, h]
  rfl

/-! An instance that has been stepped (R29). -/

theorem execNextl_marks_started {s t : State} (h : s.unitL.Ready) (ht : execNextl s = .next t) :
    t.unitL.constructed = true ∧ t.unitL.started = true := by
  cases (exec_nextl_of_ready s h).symm.trans ht
  exact ⟨h.1, rfl⟩

end Sys2Proof.Machine

open Sys2Proof Sys2Proof.Machine Sys2Proof.Claims

/-- Settles O43: a step is a reset, an illegal word or an instruction, and each keeps the invariant (`step_keeps_inv`),
which holds the arrays in canonical form. -/
theorem everyStepKeepsTheInvariant : Obligations.EveryStepKeepsTheInvariant := by
  unfold Obligations.EveryStepKeepsTheInvariant
  intro s t hs h
  have ⟨hS, hL⟩ := step_keeps_inv hs h
  exact ⟨⟨hS, hL⟩, UnitS.words_wf hS, UnitL.words_wf hL⟩

/-- Settles O42: of what can stand at the host interface, only a command could fault, and in a legal state it does not
(`command_completes`). -/
theorem invariantStepsAreSafe : Obligations.InvariantStepsAreSafe := by
  unfold Obligations.InvariantStepsAreSafe
  intro s hs
  rcases fetch_cases s.inputs with ⟨hin, hf⟩ | ⟨rest, hin, -⟩ | ⟨i, used, hd, -⟩ | ⟨hd, -⟩ | ⟨w, rest, -, hd, hf⟩
  · exact .inr (.inl ⟨by rw [step, hf], hin⟩)
  · exact .inl ⟨_, step_of_reset hin⟩
  · obtain ⟨t, ht⟩ := command_completes (s := s.consume used) hs (isCommand_of_decode hd)
    exact .inl ⟨t, (step_of_decode hd).trans ht⟩
  · exact .inl ⟨_, step_of_decode_illegal hd⟩
  · exact .inr (.inr ⟨by rw [step, hf], hd⟩)

/-- Settles O44: both units after reset are legal. -/
theorem resetMeetsTheInvariant : Obligations.ResetMeetsTheInvariant := by
  unfold Obligations.ResetMeetsTheInvariant
  exact ⟨⟨UnitS.reset_legal, UnitL.reset_legal⟩, UnitS.words_wf UnitS.reset_legal, UnitL.words_wf UnitL.reset_legal⟩

/-- Settles O35: a new instance is not started, and TEMPER leaves it so; NEXTL marks it (`execNextl_marks_started`). -/
theorem switchIsOpenUntilTheFirstSample : Obligations.SwitchIsOpenUntilTheFirstSample := by
  unfold Obligations.SwitchIsOpenUntilTheFirstSample
  constructor
  · intro s t b ws a h hl
    cases (exec_seedl_of_ok (checkSeed_of_length_eq hl) b s).symm.trans h
    exact ⟨_, execTemper_of_not_started a rfl rfl, rfl, fun a' => ⟨_, execTemper_of_not_started a' rfl rfl, rfl⟩⟩
  · intro s t a h ht
    obtain ⟨hc, hs⟩ := execNextl_marks_started h ht
    exact execTemper_of_started a hc hs

/-- Settles O37: each instruction is local to its unit (`exec_local_of_unitS`, `exec_local_of_unitL`), so that it does
the same thing before and after the other. -/
theorem commandsOnDifferentUnitsCommute : Obligations.CommandsOnDifferentUnitsCommute := by
  unfold Obligations.CommandsOnDifferentUnitsCommute
  intro i j s t₁ t₂ hi hj h₁ h₂
  obtain ⟨u, ri, hS⟩ := (exec_local_of_unitS hi s.unitS).exists_effect h₁
  cases (hS s rfl).symm.trans h₁
  obtain ⟨v, rj, hL⟩ := (exec_local_of_unitL hj _).exists_effect h₂
  cases (hL _ rfl).symm.trans h₂
  exact ⟨_, _, ri, rj, hL s rfl, hS _ rfl, rfl, rfl, rfl, rfl, rfl⟩

/-- Settles O45: the effects of the instructions one by one (`exec_next_cases`). -/
theorem fieldsChangeOnlyAsListed : Obligations.FieldsChangeOnlyAsListed := by
  unfold Obligations.FieldsChangeOnlyAsListed
  intro i s t h
  rcases exec_next_cases h with ⟨e, -, -, rfl⟩ | ⟨ws, rfl, -, rfl⟩ | ⟨b, ws, rfl, -, rfl⟩ | ⟨b, rfl, -, hs, rfl⟩ |
    ⟨rfl, -, x, -, rfl⟩ | ⟨rfl, -, x, -, rfl⟩ | ⟨m, rfl, -, x, -, rfl⟩
  · simp
  · simp
  · simp
  · simp [hs]
  · simp
  · simp
  · simp

/-- Settles O46: `step_keeps_constructed` for a step that is no reset; a reset gives the fields of `UnitS.reset` and
`UnitL.reset`. -/
theorem resetEventDiscardsBothInstances : Obligations.ResetEventDiscardsBothInstances := by
  unfold Obligations.ResetEventDiscardsBothInstances
  refine ⟨fun s t h hcleared => ?cleared, fun s rest hin => ?reset⟩
  case cleared =>
    refine (step_keeps_constructed h).resolve_right fun ⟨hS, hL⟩ => ?_
    rcases hcleared with ⟨hc, hf⟩ | ⟨hc, hf⟩
    · exact absurd ((hS hc).symm.trans hf) nofun
    · exact absurd ((hL hc).symm.trans hf) nofun
  case reset =>
    exact ⟨s.takeReset, step_of_reset hin, rfl, rfl, rfl, rfl, rfl, rfl, rfl, Memory.read_nil, Memory.read_nil,
      by rw [State.takeReset_inputs, hin]; rfl, rfl⟩

end
